-- ==== Sys2Proof/Word.lean ====
section
/-! DEFINITION. The two word types of the block: a byte of the byte sequence (R3: a byte has 8 bits) and the 32-bit
result (R3: `RW = 32`). Indices, bounds and lengths are natural numbers (R4, R65). -/

namespace Sys2Proof

/-- An element of the byte sequence (R20: a value in `[0, 255]`). -/
abbrev Byte := BitVec 8

/-- The 32-bit result carried by a response (R3, R47). -/
abbrev Data := BitVec 32

end Sys2Proof
end

