-- ==== Sys2Proof/Config.lean ====
section
/-! DEFINITION. The constants the spec fixes (R3), the index width the spec leaves open (R4, D2), and the two free values
of the response port (R47, U4, U13). -/

namespace Sys2Proof.Config

/-- `IW`, the width of a bit index, of a range bound and of `L`. R4 leaves it open (at least 8) and gives the reference
value 32, at which the machine is built. DESIGN CHOICE, safe (log 1). Syntax, decoder and encoder take it as an argument. -/
abbrev indexWidth : Nat := 32

/-- `CW = 2*IW + 4`, the width of a command word (R40). -/
abbrev cmdWidth (iw : Nat) : Nat := 2 * iw + 4

/-- The width of the built machine's command word, 68. -/
abbrev commandBits : Nat := cmdWidth indexWidth

/-- `BYTE`: bits per byte (R3). -/
abbrev byteBits : Nat := 8

/-- One more than `MAXLEN = 31`: the bound that the length of a range stays below (R3, R83). -/
abbrev rangeBound : Nat := 32

/-- `MAXWIN`: the most bytes one range touches (R91). -/
abbrev maxWindow : Nat := 5

/-- Free value: what the 32 data wires carry while a `Fault` response is presented (R47, U4: any value). The argument counts
the responses given so far. DESIGN CHOICE, safe (log 9). -/
opaque faultData : Nat → Data

/-- Free value: what the 36 response wires carry while `rsp_valid = 0` (R18, U13: any value). DESIGN CHOICE, safe (log 9). -/
opaque idleRsp : Nat → BitVec 36

end Sys2Proof.Config
end

