-- ==== Sys2Proof/Syntax.lean ====
section
/-! DEFINITION. The commands (R42: exactly two) and the six causes of a contract violation (R101). -/

namespace Sys2Proof

/-- One constructor per row of the opcode table. Operands are the unsigned numbers their fields hold (R41), carried as
naturals as R4 allows; the index width is applied by the decoder and by `Instr.wellFormed`. -/
inductive Instr where
  /-- `getbit index` (R70): stream bit `index`. -/
  | getbit (index : Nat)
  /-- `getrange start, stop` (R75): the bits of the half-open range from `start` up to, not including, `stop`. -/
  | getrange (start stop : Nat)
deriving DecidableEq, Repr

/-- Why a command is a contract violation (R101). A diagnostic only: the fact of the fault is what the source fixes. -/
inductive Cause where
  /-- Reserved `op`, or `getbit` with `b` not zero (R43, R44, R102). -/
  | illegalCmd
  /-- `getbit` with `index / 8 >= L` (R70). -/
  | indexOob
  /-- `getrange` with `end / 8 > L` (R64, R75). -/
  | rangeEndOob
  /-- `getrange` with `start > end` (R82). -/
  | rangeReversed
  /-- `getrange` with `end - start >= 32` (R83). -/
  | rangeTooWide
  /-- `getrange` that reaches a bit outside the byte sequence (R77). -/
  | rangeBitOob
deriving DecidableEq, Repr

/-- A response (R46): a value, or a fault that carries no data at all (R47, R104). -/
inductive Rsp where
  /-- `Ok(data)`. -/
  | ok (data : Data)
  /-- `Fault(cause)`. -/
  | fault (cause : Cause)
deriving DecidableEq, Repr

end Sys2Proof
end

