-- ==== Sys2Proof/WellFormed.lean ====
section
/-! DEFINITION. When an instruction is one that a command word can spell: every operand fits its `iw`-bit field (R4, R40). -/

namespace Sys2Proof

/-- Every operand is in `[0, 2^iw)` (R4). Every pair of bounds is a legal encoding of `getrange` (R45). -/
def Instr.wellFormed (iw : Nat) : Instr → Bool
  | .getbit index => decide (index < 2 ^ iw)
  | .getrange start stop => decide (start < 2 ^ iw) && decide (stop < 2 ^ iw)

end Sys2Proof
end

