-- ==== Sys2Proof/Decode.lean ====
section
/-! DEFINITION. The command decoder of R45, total on every command word and rejecting by name, then the encoder of R40 and R42.
Both take the index width `iw` as an argument (R4); `decode` and `encode` are the built machine's. -/

namespace Sys2Proof

/-- Why a command word spells no command. The machine answers it `Fault(ILLEGAL_CMD)` (R102). -/
inductive DecodeError where
  /-- One of the fourteen reserved values of `op` (R43). -/
  | reservedOp (op : BitVec 4)
  /-- A `getbit` word whose reserved field `b` is not zero (R44). -/
  | reservedField (b : Nat)
deriving DecidableEq, Repr

/-- `cmd.op = cmd[3:0]` (R40). -/
def cmdOp (iw : Nat) (cmd : BitVec (Config.cmdWidth iw)) : BitVec 4 :=
  cmd.extractLsb' 0 4

/-- `cmd.a = cmd[IW+3 : 4]`, as the unsigned number it holds (R40, R41). -/
def cmdA (iw : Nat) (cmd : BitVec (Config.cmdWidth iw)) : Nat :=
  (cmd.extractLsb' 4 iw).toNat

/-- `cmd.b = cmd[2*IW+3 : IW+4]`, as the unsigned number it holds (R40, R41). -/
def cmdB (iw : Nat) (cmd : BitVec (Config.cmdWidth iw)) : Nat :=
  (cmd.extractLsb' (iw + 4) iw).toNat

/-- The decode function of R45, test by test. -/
def decodeCmd (iw : Nat) (cmd : BitVec (Config.cmdWidth iw)) : Except DecodeError Instr :=
  if cmdOp iw cmd = 1#4 then
    if cmdB iw cmd = 0 then .ok (.getbit (cmdA iw cmd)) else .error (.reservedField (cmdB iw cmd))
  else if cmdOp iw cmd = 2#4 then .ok (.getrange (cmdA iw cmd) (cmdB iw cmd))
  else .error (.reservedOp (cmdOp iw cmd))

/-- The built machine's decoder, of a 68-bit word. -/
def decode (cmd : BitVec Config.commandBits) : Except DecodeError Instr :=
  decodeCmd Config.indexWidth cmd

/-- The operation codes of R42. -/
def Instr.opcode : Instr → BitVec 4
  | .getbit _ => 1#4
  | .getrange _ _ => 2#4

/-- The number in field `a` (R42). -/
def Instr.fieldA : Instr → Nat
  | .getbit index => index
  | .getrange start _ => start

/-- The number in field `b`: zero for `getbit` (R42, R44). -/
def Instr.fieldB : Instr → Nat
  | .getbit _ => 0
  | .getrange _ stop => stop

/-- `cmd = (b << (IW + 4)) | (a << 4) | op` (R40), the three fields side by side. An operand that does not fit its field has no
encoding (R4); the word answered for such an instruction means nothing (log 21). -/
def encodeCmd (iw : Nat) (i : Instr) : BitVec (Config.cmdWidth iw) :=
  BitVec.ofNat (Config.cmdWidth iw) ((i.fieldB <<< (iw + 4)) ||| (i.fieldA <<< 4) ||| i.opcode.toNat)

/-- The built machine's encoder, to a 68-bit word. -/
def encode (i : Instr) : BitVec Config.commandBits :=
  encodeCmd Config.indexWidth i

/-- The decoder's instruction, or nothing for a word that spells none. -/
def decodeOption (cmd : BitVec Config.commandBits) : Option Instr :=
  match decode cmd with
  | .ok i => some i
  | .error _ => none

/-- The instruction the decoder reads from the bits `w`, of which the first `nbits` count and the others are zero. A command
word is presented whole on a 68-bit port (R40, R49), so a number that needs more than 68 bits is no command word (log 14). -/
def decodeTableWord (nbits w : Nat) : Option Instr :=
  if w % 2 ^ nbits < 2 ^ Config.commandBits then
    decodeOption (BitVec.ofNat Config.commandBits (w % 2 ^ nbits))
  else none

end Sys2Proof
end

