-- ==== Sys2Proof/Machine/State.lean ====
section
/-! DEFINITION. The machine's state as plain data, the reasons it can stop, and the state after reset.
The block itself has no architectural state (R10 to R15). State holds what R18 says exists (the environment's byte sequence and
its length, the command in flight, the response presented) and what a model of a run adds (the host's moves to come, the
responses so far, two counters; `10_state.md` section 9). -/

namespace Sys2Proof.Machine

/-- The byte sequence behind the byte read port (R20, R49): byte index and byte, indices strictly rising. -/
abbrev Memory := List Host.Cell

/-- What the environment does next (R16, R49, R120, R128). The order of a list of these, together with the block's answers,
is the order in which things happen (log 7). -/
inductive Input where
  /-- The host holds a command word on `req_cmd` with `req_valid = 1` until the block accepts it (R49). -/
  | command (cmd : BitVec Config.commandBits)
  /-- The host lets the block answer the command in flight before it does anything else (R49 (a), R124). -/
  | await
  /-- The owner replaces the byte sequence: `len` on `buf_len`, `bytes` behind the read port from index 0 (R16, R121). Fewer bytes
  than `len` are a sequence the environment cannot supply whole (R122). -/
  | present (len : BitVec Config.indexWidth) (bytes : List Byte)
  /-- The owner writes one byte of the sequence (R16, R32 (d)). -/
  | write (index : Nat) (byte : Byte)
  /-- The host asserts and releases `rst` (R120). -/
  | rst
  /-- The read port answers from now on, or does not (R126, U16). -/
  | answering (live : Bool)
deriving DecidableEq, Repr

/-- The machine. -/
structure State where
  /-- Port `buf_len`: `L`, the length in bytes of the byte sequence (R20, R49). The environment's. -/
  bufLen : BitVec Config.indexWidth
  /-- The bytes of the sequence behind the read port (R20, R49), at indices below `L` (R26). The environment's; the block never
  writes them (R27). -/
  mem : Memory
  /-- Whether the environment answers byte reads (R126, U16). -/
  memAnswers : Bool
  /-- The command accepted and not yet answered (R18, R120); `req_ready` is its absence (R49 (a)). -/
  inFlight : Option (BitVec Config.commandBits)
  /-- The response presented; `rsp_valid` is its presence (R49). -/
  rsp : Option Rsp
  /-- What the environment does next, first move first. -/
  inputs : List Input
  /-- The responses so far, in issue order (R128). -/
  history : List Rsp
  /-- The MODEL's own: how many commands have been accepted (log 12). -/
  accepted : Nat
  /-- The MODEL's own: how many accepted commands a reset dropped unanswered (R120, log 12). -/
  dropped : Nat
deriving DecidableEq, Repr

/-- Why the machine stops with a fault. A contract violation is not here: it is a response (R104). -/
inductive Fault where
  /-- Raised by a command that needs a byte while the environment does not answer reads: the command never completes (U16:
  stuck; excluded by the premise of R126). Safe: nothing is provable of such a run. -/
  | readUnanswered
deriving DecidableEq, Repr

/-- Why the machine gives a situation no meaning. -/
inductive Refusal where
  /-- Raised by an arm of `exec` for an instruction without a meaning; no arm does. Safe. -/
  | notModelled (mnemonic : String)
  /-- Raised by an environment move that changes the byte sequence or `L` while a command is in flight (R29, R124, U5: refuse).
  Safe. -/
  | sequenceChanged
  /-- Raised by a command valid against `L` that needs a byte the environment cannot supply (R122, U7: refuse). Safe. -/
  | byteMissing
deriving DecidableEq, Repr

/-- The machine right after reset (R18, R120): no command in flight, no response presented, nothing issued yet. The byte sequence
is the environment's and reset does not touch it; here it is the empty one (DESIGN CHOICE, unsafe, log 3), its reads answered
(DESIGN CHOICE, unsafe, log 5). -/
def State.reset : State where
  bufLen := 0
  mem := []
  memAnswers := true
  inFlight := none
  rsp := none
  inputs := []
  history := []
  accepted := 0
  dropped := 0

end Sys2Proof.Machine
end

