-- ==== Sys2Proof/Machine/Flags.lean ====
section
/-! DEFINITION. The block has no flag, condition code or status register (R13, R14). What stands here is the fault indication of a
response: its cause code (R101), the 36-bit response word (R47), and the run's fault mark (R106). -/

namespace Sys2Proof

/-- The 3-bit code of a cause (R101). Code 0 means no fault and code 7 is reserved. -/
def Cause.code : Cause → BitVec 3
  | .illegalCmd => 1#3
  | .indexOob => 2#3
  | .rangeEndOob => 3#3
  | .rangeReversed => 4#3
  | .rangeTooWide => 5#3
  | .rangeBitOob => 6#3

/-- The cause of a code; none for 0 and for the reserved 7 (R101). -/
def Cause.ofCode (code : BitVec 3) : Option Cause :=
  if code = 1#3 then some .illegalCmd
  else if code = 2#3 then some .indexOob
  else if code = 3#3 then some .rangeEndOob
  else if code = 4#3 then some .rangeReversed
  else if code = 5#3 then some .rangeTooWide
  else if code = 6#3 then some .rangeBitOob
  else none

/-- The `fault` wire of a response (R47). -/
def Rsp.isFault : Rsp → Bool
  | .ok _ => false
  | .fault _ => true

/-- What a host may use of a response (R125): the data of an `Ok`, nothing of a `Fault`. -/
def Rsp.data? : Rsp → Option Data
  | .ok data => some data
  | .fault _ => none

/-- The 36-bit response word (R47): `fault` above `cause` above `data`. `free` is what the data wires of a `Fault` carry, any
value (U4). -/
def Rsp.toWire (free : Data) : Rsp → BitVec 36
  | .ok data => 0#1 ++ 0#3 ++ data
  | .fault cause => 1#1 ++ cause.code ++ free

/-- The response a word spells (R47); none for a word the block never produces: code 0 or 7 with `fault = 1`, or a cause with
`fault = 0` (R101, U9). -/
def Rsp.ofWire (word : BitVec 36) : Option Rsp :=
  if word.extractLsb' 35 1 = 1#1 then (Cause.ofCode (word.extractLsb' 32 3)).map Rsp.fault
  else if word.extractLsb' 32 3 = 0#3 then some (.ok (word.extractLsb' 0 32))
  else none

end Sys2Proof

namespace Sys2Proof.Machine

/-- Port `req_ready`: the block accepts a command exactly when none is in flight (R49 (a), R106). -/
def State.reqReady (s : State) : Bool := s.inFlight.isNone

/-- Port `rsp_valid` (R49). -/
def State.rspValid (s : State) : Bool := s.rsp.isSome

/-- Port `rsp` (R47, R49): the response word while one is presented; otherwise any value. The free values are drawn with the
number of responses so far (log 9). -/
def State.rspPort (s : State) : BitVec 36 :=
  match s.rsp with
  | some r => r.toWire (Config.faultData s.history.length)
  | none => Config.idleRsp s.history.length

/-- The run's fault mark (R106): some response so far is a `Fault`. -/
def State.faulted (s : State) : Bool := s.history.any Rsp.isFault

end Sys2Proof.Machine
end

