-- ==== Sys2Proof/Machine/Operands.lean ====
section
/-! DEFINITION. The `bit_address_decoder` (R60 to R66): how a bit index or a pair of bounds addresses the byte sequence, and the
value of one bit. All arithmetic is over the naturals (R65).

R66 defines its quantities for a non-empty range only. As total functions they also answer numbers for an empty or a reversed range;
those numbers are artefacts of truncated subtraction and mean nothing (DESIGN CHOICE, safe, log 21). -/

namespace Sys2Proof.Machine

/-- R60: the byte that holds stream bit `b`. -/
def byteIndex (b : Nat) : Nat := b / Config.byteBits

/-- R61: the position of stream bit `b` in its byte, 0 the most significant. -/
def bitOff (b : Nat) : Nat := b % Config.byteBits

/-- R62: stream bit `b` lies in a sequence of `len` bytes. -/
def inBounds (b len : Nat) : Bool := decide (byteIndex b < len)

/-- R64: the test of a range's exclusive bound, which passes up to `8*len + 7` (C3). -/
def rangeEndOk (stop len : Nat) : Bool := decide (stop / Config.byteBits ≤ len)

/-- R22, R63: the bit of a byte at an offset counted from its most significant bit. The offset is one of 0 to 7 (R61); for a larger
one the answer means nothing (log 21). -/
def selectBit (byte : Byte) (off : Nat) : Bool := byte.getLsbD (7 - off)

/-- R48: a boolean carried as a 32-bit number. -/
def boolData (t : Bool) : Data := if t then 1#32 else 0#32

/-- R66: `len` of a non-empty range. R66 defines none for an empty or a reversed range; the 0 answered there is the model's (log 21). -/
def rangeLen (start stop : Nat) : Nat := stop - start

/-- R66: `k0`, the first byte a non-empty range touches. An empty or a reversed range touches none, so there the number answered is
no byte of the range (log 21). -/
def firstByte (start : Nat) : Nat := byteIndex start

/-- R66: `k1`, the last byte a non-empty range touches. It is the last byte of no empty or reversed range, although the function
answers there too, with 0 for `stop = 0` (DESIGN CHOICE, log 21). -/
def lastByte (stop : Nat) : Nat := byteIndex (stop - 1)

/-- R66: `n`, how many bytes a non-empty range touches. For an empty or a reversed range R66 defines no `n` and the answer, which is
at least 1, means nothing (DESIGN CHOICE, log 21). -/
def bytesTouched (start stop : Nat) : Nat := lastByte stop - firstByte start + 1

/-- R66: `tail`, the bits of byte `k1` after a non-empty range. For an empty or a reversed range R66 defines no `tail`; the number
the truncated subtraction answers (3 for 5, 5) is the model's and means nothing (DESIGN CHOICE, log 21). -/
def tailBits (start stop : Nat) : Nat :=
  Config.byteBits * bytesTouched start stop - bitOff start - rangeLen start stop

end Sys2Proof.Machine
end

