-- ==== Sys2Proof/Machine/Ops.lean ====
section
/-! DEFINITION. The named operations: the byte sequence's storage, the byte and bit reads, accepting and answering a command,
taking the one exception (R100, R104), and reset (R120). -/

namespace Sys2Proof.Machine

/-- The byte at an index. An index that is not listed has no value: the environment has no byte there (log 4). -/
def Memory.read : Memory → Nat → Option Byte
  | [], _ => none
  | (k, b) :: rest, i => if i = k then some b else Memory.read rest i

/-- The storage with one byte written, indices kept strictly rising. Only the environment writes (R16, R27). -/
def Memory.write : Memory → Nat → Byte → Memory
  | [], i, v => [(i, v)]
  | (k, b) :: rest, i, v =>
    if i < k then (i, v) :: (k, b) :: rest
    else if i = k then (i, v) :: rest
    else (k, b) :: Memory.write rest i v

/-- The bytes of a list laid out from index `k` up. -/
def Memory.layOut : Nat → List Byte → Memory
  | _, [] => []
  | k, b :: rest => (k, b) :: Memory.layOut (k + 1) rest

/-- The storage holding a byte sequence from index 0 (R20). -/
def Memory.ofBytes (bytes : List Byte) : Memory := Memory.layOut 0 bytes

/-- Every index of the storage is at least `k`, and they rise strictly. -/
def Memory.risesFrom : Nat → Memory → Bool
  | _, [] => true
  | k, (i, _) :: rest => decide (k ≤ i) && Memory.risesFrom (i + 1) rest

/-- The canonical form: byte indices strictly rising. (No entry can equal what an unlisted index reads as, which is no value.) -/
def Memory.wf (m : Memory) : Bool := Memory.risesFrom 0 m

/-- The part of the storage that is the byte sequence: the indices below `len` (R20). -/
def Memory.below (len : Nat) (m : Memory) : Memory := m.filter fun c => decide (c.1 < len)

/-- `L` as a number (R20). -/
def State.len (s : State) : Nat := s.bufLen.toNat

/-- `MemRead(k, 1)` (R20) as the block gets it. It has no value at or beyond `L`, whatever the storage holds (R26); below `L` it is
the byte, or nothing where the environment has none (R122) or does not answer (R126). -/
def State.readByte (s : State) (k : Nat) : Option Byte :=
  if k < s.len then if s.memAnswers then s.mem.read k else none else none

/-- `bit(b)` (R63) as a boolean; it has a value only where `inBounds b s.len` (R26, R63). -/
def State.bitAt (s : State) (b : Nat) : Option Bool :=
  (s.readByte (byteIndex b)).map fun byte => selectBit byte (bitOff b)

/-- `MemRead(k, n)` (R23): `n` bytes as one big-endian number, byte `k` most significant. R23 has `n` from 1 to 5; the 0 for no byte
and the numbers of more than 5 bytes are the model's (log 21). -/
def State.readBytes (s : State) (k : Nat) : Nat → Option Nat
  | 0 => some 0
  | n + 1 => do
    let high ← s.readBytes k n
    let low ← s.readByte (k + n)
    pure (high * 2 ^ Config.byteBits + low.toNat)

/-- The response to the command in flight is presented and the block is idle again (R46, R49, R106). -/
def State.answer (r : Rsp) (s : State) : State :=
  { s with inFlight := none, rsp := some r, history := s.history ++ [r] }

/-- Taking the one exception, `raise ContractViolation(cause)` (R100, R104): the command ends at once with a `Fault` response and
has no other effect. Nothing is saved and control goes nowhere, since the block has no state, mode or program counter; there is
no return from it (R108). -/
def State.raise (cause : Cause) (s : State) : Host.Outcome State Fault Refusal :=
  .next (s.answer (.fault cause))

/-- `respond Ok(data)`, where `data` is nothing if a byte it needs could not be read: then the command never completes if reads
go unanswered (U16), and has no meaning if the environment lacks the byte (R122, U7). -/
def State.deliver (data : Option Data) (s : State) : Host.Outcome State Fault Refusal :=
  match data with
  | some d => .next (s.answer (.ok d))
  | none => if s.memAnswers then .refused .byteMissing else .fault .readUnanswered

/-- The block, idle, accepts a command (R49): no response is presented any longer (log 8). -/
def State.accept (cmd : BitVec Config.commandBits) (s : State) : State :=
  { s with inFlight := some cmd, rsp := none, accepted := s.accepted + 1 }

/-- `rst` (R120): a command in flight is dropped and never answered, no response is pending, the block is idle. The byte sequence
and the host's record of the run are not touched (R18). -/
def State.assertRst (s : State) : State :=
  { s with inFlight := none, rsp := none, dropped := s.dropped + s.inFlight.toList.length }

/-- The two states present the same byte sequence: the same `L` and the same bytes below it (R20). -/
def State.sameSequence (s t : State) : Bool :=
  decide (s.bufLen = t.bufLen) && decide (s.mem.below s.len = t.mem.below t.len)

end Sys2Proof.Machine
end

