-- ==== Sys2Proof/Machine/GetBit.lean ====
section
/-! DEFINITION. The GET_BIT command (R70). -/

namespace Sys2Proof.Machine

/-- `getbit index` (R70). The test of the reserved field `b` comes before it, in the decoder (R44, R45, log 11). -/
def execGetbit (index : Nat) (s : State) : Host.Outcome State Fault Refusal :=
  if inBounds index s.len then s.deliver ((s.bitAt index).map boolData)
  else s.raise .indexOob

end Sys2Proof.Machine
end

