-- ==== Sys2Proof/Machine/GetRange.lean ====
section
/-! DEFINITION. The GET_BIT_RANGE command (R75), bit by bit as its normative pseudocode says. -/

namespace Sys2Proof.Machine

/-- One round of R75's iteration: `acc <- (acc << 1) | bit(i)`; nothing once a byte could not be read. -/
def shiftIn (acc : Option Data) (bit : Option Bool) : Option Data := do
  let a ← acc
  let t ← bit
  pure ((a <<< 1) ||| boolData t)

/-- The iteration of R75 over `count` bits from index `i`, ascending, each with its own bounds test (R77). A byte that cannot be read
leaves the accumulator without a value and the iteration goes on, so that whether the command is a contract violation never
depends on memory (R100, log 10). -/
def rangeLoop (s : State) : Nat → Nat → Option Data → Except Cause (Option Data)
  | 0, _, acc => .ok acc
  | count + 1, i, acc =>
    if inBounds i s.len then rangeLoop s count (i + 1) (shiftIn acc (s.bitAt i))
    else .error .rangeBitOob

/-- `getrange start, stop` (R75): the three tests in the order of R103, then the iteration. -/
def execGetrange (start stop : Nat) (s : State) : Host.Outcome State Fault Refusal :=
  if ¬ rangeEndOk stop s.len then s.raise .rangeEndOob
  else if start > stop then s.raise .rangeReversed
  else if ¬ (stop - start < Config.rangeBound) then s.raise .rangeTooWide
  else
    match rangeLoop s (stop - start) start (some 0#32) with
    | .error cause => s.raise cause
    | .ok data => s.deliver data

end Sys2Proof.Machine
end

