-- ==== Sys2Proof/Machine/Dispatch.lean ====
section
/-! DEFINITION. `exec`: one arm per constructor of `Instr`, one direct call of its meaning. -/

namespace Sys2Proof.Machine

def exec (i : Instr) (s : State) : Host.Outcome State Fault Refusal :=
  match i with
  | .getbit index => Sys2Proof.Machine.execGetbit index s
  | .getrange start stop => Sys2Proof.Machine.execGetrange start stop s

end Sys2Proof.Machine
end

