-- ==== Sys2Proof/Machine/Environment.lean ====
section
/-! DEFINITION. One turn of the machine: the block's own move (answering the command in flight) and the environment's moves
(R16, R49, R120, R124). `step` only calls `turn`. -/

namespace Sys2Proof.Machine

/-- The block answers the command word in flight: an illegal word with `Fault(ILLEGAL_CMD)` (R43, R44, R102), any other by its
meaning (R45). -/
def runCommand (cmd : BitVec Config.commandBits) (s : State) : Host.Outcome State Fault Refusal :=
  match decode cmd with
  | .ok i => exec i s
  | .error _ => s.raise .illegalCmd

/-- The block's move when the environment leaves it alone: answer the command in flight (R126), or stay idle. -/
def blockTurn (s : State) : Host.Outcome State Fault Refusal :=
  match s.inFlight with
  | some cmd => runCommand cmd s
  | none => .next s

/-- The environment turns `s` into `t`, which may present another byte sequence: free between commands, refused while a command
is in flight unless the sequence stays the same (R29, R124, U5). -/
def changeSequence (s t : State) : Host.Outcome State Fault Refusal :=
  if s.inFlight.isNone || s.sameSequence t then .next t else .refused .sequenceChanged

/-- The sequence that `present` brings (R16, R121): the bytes below `len`, for the sequence has no others (R20, R26). -/
def State.install (len : BitVec Config.indexWidth) (bytes : List Byte) (s : State) : State :=
  { s with bufLen := len, mem := (Memory.ofBytes bytes).below len.toNat }

/-- The sequence that `write` leaves (R32 (d)). An index at or beyond `L` is no byte of the sequence (R20), so such a write leaves
the sequence as it is (log 6). -/
def State.poke (index : Nat) (byte : Byte) (s : State) : State :=
  { s with mem := if index < s.len then s.mem.write index byte else s.mem }

/-- The machine's turn with the environment's next move at hand; `s` has that move already taken off its inputs. A host that
presents a command, or that awaits, lets the block answer first and makes its move again afterwards (R49 (a)). -/
def inputTurn (move : Input) (before s : State) : Host.Outcome State Fault Refusal :=
  match move with
  | .command cmd =>
    match before.inFlight with
    | none => .next (s.accept cmd)
    | some word => runCommand word before
  | .await =>
    match before.inFlight with
    | none => .next s
    | some word => runCommand word before
  | .present len bytes => changeSequence s (s.install len bytes)
  | .write index byte => changeSequence s (s.poke index byte)
  | .rst => .next s.assertRst
  | .answering live => .next { s with memAnswers := live }

/-- One turn. -/
def turn (s : State) : Host.Outcome State Fault Refusal :=
  match s.inputs with
  | [] => blockTurn s
  | move :: rest => inputTurn move s { s with inputs := rest }

/-- The environment's next move, if any, waits for the block's answer: the command in flight is answered undisturbed. -/
def State.quiet (s : State) : Bool :=
  match s.inputs with
  | [] => true
  | .command _ :: _ => true
  | .await :: _ => true
  | _ :: _ => false

/-- The command word in flight is `cmd` and nothing disturbs it: an idle block accepts it, one that has a command in flight has
that word replaced (log 15); a disturbing move of the environment is put off behind an `await`. -/
def State.offer (cmd : BitVec Config.commandBits) (s : State) : State :=
  let placed := match s.inFlight with
    | none => s.accept cmd
    | some _ => { s with inFlight := some cmd }
  { placed with inputs := if s.quiet then s.inputs else .await :: s.inputs }

/-- The command word of the bits `w`, of which the first `nbits` count. -/
def tableWord (nbits w : Nat) : BitVec Config.commandBits := BitVec.ofNat Config.commandBits (w % 2 ^ nbits)

end Sys2Proof.Machine
end

