-- ==== Sys2Proof/Machine/Step.lean ====
section
/-! DEFINITION. The step function and the placing of one command where the next step runs it. -/

namespace Sys2Proof.Machine

/-- One step: the environment's next move, or the block's answer to the command in flight. -/
def step (s : State) : Host.Outcome State Fault Refusal := turn s

/-- `s` with the command word of the bits `w` in flight, so that the next step answers it. A command is presented by the host on
the request port and fetched from no memory (R34, R49); this stands for that presentation (log 2). -/
def State.withFetchWord (s : State) (nbits w : Nat) : State := s.offer (tableWord nbits w)

end Sys2Proof.Machine
end

