-- ==== Sys2Proof/Machine/Assembler.lean ====
section
/-! DEFINITION. The assembler syntax of R50, over lists of characters, and the loading of a program: the host's list of moves.
White space, letter case and what an assembler refuses are left open by R50 (DESIGN CHOICE, log 16). -/

namespace Sys2Proof.Machine

/-- The tokens of a line. -/
inductive Token where
  | word (name : List Char)
  | num (value : Nat)
  | dot
  | comma
  | openParen
  | closeParen
  | openBracket
  | closeBracket
deriving DecidableEq, Repr

/-- What one line of a program says (R50). -/
inductive Line where
  /-- Nothing, or a comment only. -/
  | blank
  /-- One command. -/
  | command (i : Instr)
  /-- The `.bytes` directive: the byte sequence the commands after it run against. -/
  | bytes (bs : List Byte)
deriving DecidableEq, Repr

/-- A digit's value, hexadecimal digits in either case. -/
def digitValue (c : Char) : Option Nat :=
  if '0' ≤ c ∧ c ≤ '9' then some (c.toNat - '0'.toNat)
  else if 'a' ≤ c ∧ c ≤ 'f' then some (c.toNat - 'a'.toNat + 10)
  else if 'A' ≤ c ∧ c ≤ 'F' then some (c.toNat - 'A'.toNat + 10)
  else none

/-- The number a list of digits of a base adds to `acc`; nothing if one is no digit of the base. -/
def digitsFrom (base : Nat) : Nat → List Char → Option Nat
  | acc, [] => some acc
  | acc, c :: rest =>
    match digitValue c with
    | some d => if d < base then digitsFrom base (acc * base + d) rest else none
    | none => none

/-- A number of at least one digit. -/
def digits (base : Nat) : List Char → Option Nat
  | [] => none
  | cs => digitsFrom base 0 cs

/-- A numeral: decimal, `0x` hexadecimal or `0b` binary (R50). -/
def numeral : List Char → Option Nat
  | '0' :: 'x' :: rest => digits 16 rest
  | '0' :: 'b' :: rest => digits 2 rest
  | cs => digits 10 cs

/-- A character of a name or a numeral. -/
def isNameChar (c : Char) : Bool := c.isAlphanum || c == '_'

/-- The token of a run of name characters, none for an empty run: a numeral if it starts with a digit. -/
def runToken : List Char → Option (List Token)
  | [] => some []
  | c :: rest =>
    if c.isDigit then (numeral (c :: rest)).map fun n => [.num n]
    else some [.word (c :: rest)]

/-- The token of a punctuation character; white space has none. -/
def markToken (c : Char) : Option (List Token) :=
  if c = '.' then some [.dot]
  else if c = ',' then some [.comma]
  else if c = '(' then some [.openParen]
  else if c = ')' then some [.closeParen]
  else if c = '[' then some [.openBracket]
  else if c = ']' then some [.closeBracket]
  else if c.isWhitespace then some []
  else none

/-- The tokens of a line up to a comment; `run` holds the name characters just read, last first. Nothing for a character R50 gives
no meaning. -/
def tokens : List Char → List Char → Option (List Token)
  | run, [] => runToken run.reverse
  | run, c :: rest =>
    if c = ';' then runToken run.reverse
    else if isNameChar c then tokens (c :: run) rest
    else do
      let before ← runToken run.reverse
      let mark ← markToken c
      let after ← tokens [] rest
      pure (before ++ mark ++ after)

/-- The mnemonic `getbit`. -/
def getbitName : List Char := ['g', 'e', 't', 'b', 'i', 't']
/-- The mnemonic `getrange`. -/
def getrangeName : List Char := ['g', 'e', 't', 'r', 'a', 'n', 'g', 'e']
/-- The document's name of `getbit`. -/
def getBitName : List Char := ['g', 'e', 't', '_', 'b', 'i', 't']
/-- The document's name of `getrange`. -/
def getBitRangeName : List Char := ['g', 'e', 't', '_', 'b', 'i', 't', '_', 'r', 'a', 'n', 'g', 'e']
/-- The name of the one directive. -/
def bytesName : List Char := ['b', 'y', 't', 'e', 's']

/-- The elements of a byte list up to its closing bracket, each at most 255. -/
def byteElements : List Token → Option (List Byte)
  | [.num v, .closeBracket] => if v < 256 then some [BitVec.ofNat 8 v] else none
  | .num v :: .comma :: rest =>
    if v < 256 then (byteElements rest).map fun bs => BitVec.ofNat 8 v :: bs else none
  | _ => none

/-- The command or directive of a line's tokens (R50): the mnemonic form, or the document's call notation. -/
def parseTokens : List Token → Option Line
  | [] => some .blank
  | [.word name, .num index] =>
    if name = getbitName then some (.command (.getbit index)) else none
  | [.word name, .num start, .comma, .num stop] =>
    if name = getrangeName then some (.command (.getrange start stop)) else none
  | [.word name, .openParen, .num index, .closeParen] =>
    if name = getBitName then some (.command (.getbit index)) else none
  | [.word name, .openParen, .num start, .dot, .dot, .num stop, .closeParen] =>
    if name = getBitRangeName then some (.command (.getrange start stop)) else none
  | [.dot, .word name, .openBracket, .closeBracket] =>
    if name = bytesName then some (.bytes []) else none
  | .dot :: .word name :: .openBracket :: rest =>
    if name = bytesName then (byteElements rest).map Line.bytes else none
  | _ => none

/-- A line whose command a command word can spell (R40), or whose bytes `buf_len` can count (R49). -/
def Line.wellFormed : Line → Bool
  | .command i => i.wellFormed Config.indexWidth
  | .blank => true
  | .bytes bs => decide (bs.length < 2 ^ Config.indexWidth)

/-- One line of a program (R50); nothing for a line that is not one. -/
def parseLine (cs : List Char) : Option Line :=
  match (tokens [] cs).bind parseTokens with
  | some line => if line.wellFormed then some line else none
  | none => none

/-- The lines of a text; `line` holds the characters of the line being read, last first. -/
def splitLines : List Char → List Char → List (List Char)
  | line, [] => [line.reverse]
  | line, c :: rest => if c = '\n' then line.reverse :: splitLines [] rest else splitLines (c :: line) rest

/-- A program text (R50): each line is one command, a `.bytes` directive or nothing. -/
def assemble (text : List Char) : Option (List Line) := (splitLines [] text).mapM parseLine

/-- The host's moves for one line: a command is presented, a byte sequence is put in place once the command before it is answered
(R121, R124). -/
def Line.moves : Line → List Input
  | .blank => []
  | .command i => [.command (encode i)]
  | .bytes bs => [.await, .present (BitVec.ofNat Config.indexWidth bs.length) bs]

/-- A program loaded: the host will make its moves, and awaits the last answer (log 2). -/
def State.load (lines : List Line) (s : State) : State :=
  { s with inputs := s.inputs ++ lines.flatMap Line.moves ++ [.await] }

/-- An instruction written in the assembler syntax, operands in decimal (R50). -/
def printInstr : Instr → List Char
  | .getbit index => getbitName ++ ' ' :: Nat.toDigits 10 index
  | .getrange start stop => getrangeName ++ ' ' :: Nat.toDigits 10 start ++ ',' :: ' ' :: Nat.toDigits 10 stop

end Sys2Proof.Machine
end

