-- ==== Sys2Proof/Machine/Shifter.lean ====
section
/-! DEFINITION. The `multi_byte_shifter` (R90 to R96): the forms of a range's value that a circuit computes from the bytes the range
touches. `execGetrange` is defined bit by bit (R75), as `43_multi_byte_shifter.md` asks; the statements say that these forms give
the same value.

The shifter is used only for a valid non-empty range (R90), and no command's meaning calls a form of this file. Off that domain the
forms are total functions whose answers mean nothing (DESIGN CHOICE, safe, log 21). -/

namespace Sys2Proof.Machine

/-- The byte indices a command reads when it returns a value (R25). -/
def readSet : Instr → List Nat
  | .getbit index => [byteIndex index]
  | .getrange start stop =>
    if start < stop then List.range' (firstByte start) (bytesTouched start stop) else []

/-- R92: shift out the bits after the range, then keep `len` bits. -/
def shiftMask (v tail len : Nat) : Nat := (v >>> tail) % 2 ^ len

/-- R90, R92: the shifter's output for a non-empty range, from the big-endian number of the bytes it touches. For an empty or a
reversed range R90 uses no shifter, and for 32 bits or more R83 gives no value: an answer there is no value of the range (log 21). -/
def State.shifterData (s : State) (start stop : Nat) : Option Data :=
  (s.readBytes (firstByte start) (bytesTouched start stop)).map fun v =>
    BitVec.ofNat 32 (shiftMask v (tailBits start stop) (rangeLen start stop))

/-- R93: the 40-bit window, the `n` bytes of `v` at the top and zeros below, for `n` from 1 to 5 (else log 21). -/
def window40 (v n : Nat) : BitVec 40 :=
  BitVec.ofNat 40 (v <<< (Config.byteBits * (Config.maxWindow - n)))

/-- R93, first line: `(W >> (40 - off - len)) mod 2^len`, for `off` up to 7 and `len` from 1 to 31 (else log 21). -/
def windowShiftMask (w : BitVec 40) (off len : Nat) : Data :=
  ((w >>> (40 - off - len)) &&& BitVec.ofNat 40 (2 ^ len - 1)).setWidth 32

/-- R93, second line: left-align the range in the window, then right-justify it, for `off` up to 7 and `len` from 1 to 31 (else
log 21). -/
def windowJustify (w : BitVec 40) (off len : Nat) : Data :=
  ((w <<< off) >>> (40 - len)).setWidth 32

/-- R94: `acc <- (acc << 8) | byte` over the bytes of a range, in an accumulator of `width` bits. -/
def accumulate (width : Nat) : BitVec width → List Byte → BitVec width
  | acc, [] => acc
  | acc, b :: rest => accumulate width ((acc <<< 8) ||| b.setWidth width) rest

/-- R94: the accumulated bytes, shifted right by `tail` at the end, the range's `len` bits kept. -/
def accumulatedData (width : Nat) (bytes : List Byte) (tail len : Nat) : Nat :=
  shiftMask (accumulate width 0 bytes).toNat tail len

/-- R95: the step of byte `j` of `n`: append the bits of one byte that lie in the range. The rule has `lo ≤ hi ≤ 7` and `j < n`; else
the answer means nothing (log 21). -/
def appendPart (n off tail j : Nat) (acc : Data) (byte : Byte) : Data :=
  let lo := if j = 0 then off else 0
  let hi := if j = n - 1 then 7 - tail else 7
  let w := hi - lo + 1
  (acc <<< w) ||| BitVec.ofNat 32 ((byte.toNat >>> (7 - hi)) % 2 ^ w)

/-- R95: the remaining `count` steps, from byte `j` of the range on. -/
def State.byteSerialLoop (s : State) (k0 n off tail : Nat) : Nat → Nat → Data → Option Data
  | 0, _, acc => some acc
  | count + 1, j, acc =>
    match s.readByte (k0 + j) with
    | some byte => s.byteSerialLoop k0 n off tail count (j + 1) (appendPart n off tail j acc byte)
    | none => none

/-- R95: the byte-at-a-time form of a non-empty range's value. For an empty or a reversed range R66 gives the loop no quantities, and
for 32 bits or more R83 gives no value: an answer there (a stray bit of byte 0 for 5, 5) means nothing (DESIGN CHOICE, log 21). -/
def State.byteSerialData (s : State) (start stop : Nat) : Option Data :=
  s.byteSerialLoop (firstByte start) (bytesTouched start stop) (bitOff start) (tailBits start stop)
    (bytesTouched start stop) 0 0#32

end Sys2Proof.Machine
end

