-- ==== Sys2Proof/Safety.lean ====
section
/-! DEFINITION. What counts as a good run, in the terms the claims use. -/

namespace Sys2Proof.Machine

/-- What a command leaves behind (R10, R46, R104, R106): its response is presented and recorded, the block is idle, and nothing else
has changed. Written out as a record so that a statement with it says the whole frame. -/
def afterResponse (s : State) (r : Rsp) : State :=
  { bufLen := s.bufLen
    mem := s.mem
    memAnswers := s.memAnswers
    inFlight := none
    rsp := some r
    inputs := s.inputs
    history := s.history ++ [r]
    accepted := s.accepted
    dropped := s.dropped }

/-- The value of stream bit `i` by R22's formula, from the byte of the sequence that holds it. Where there is no such byte R63 gives no value, and the 0 there is
the model's and means nothing (log 21). -/
def State.streamBit (s : State) (i : Nat) : Nat :=
  match s.mem.read (i / 8) with
  | some byte => byte.toNat / 2 ^ (7 - i % 8) % 2
  | none => 0

/-- R76: the sum of the stream bits of a valid range, each at its weight. R76 gives no value for any other range (log 21). -/
def State.rangeSum (s : State) (start stop : Nat) : Nat :=
  ∑ i ∈ Finset.Ico start stop, s.streamBit i * 2 ^ (stop - 1 - i)

/-- R78: the operands for which `getrange` returns a value against a sequence of `len` bytes. -/
def rangeValid (start stop len : Nat) : Prop :=
  start ≤ stop ∧ stop - start ≤ 31 ∧ (start < stop → stop ≤ 8 * len) ∧ (start = stop → stop / 8 ≤ len)

/-- R23: the big-endian number of a list of bytes. -/
def bigEndian (bytes : List Byte) : Nat := bytes.foldl (fun v b => v * 256 + b.toNat) 0

/-- The environment can supply every byte of the sequence it presents and answers reads: its duties of R122 and R126. -/
def State.supplied (s : State) : Prop :=
  s.memAnswers = true ∧ ∀ k, k < s.len → ∃ b, s.mem.read k = some b

/-- The environment can supply the bytes that hold the stream bits of the range, and answers reads. -/
def State.suppliesRange (s : State) (start stop : Nat) : Prop :=
  s.memAnswers = true ∧ ∀ i, start ≤ i → i < stop → ∃ b, s.mem.read (byteIndex i) = some b

/-- A move that is not a command still to be answered. -/
def Input.isCommand : Input → Bool
  | .command _ => true
  | _ => false

/-- The run is over: every issued command has been answered (R128). A command dropped by a reset never is (R120, log 13). -/
def State.runOver (s : State) : Bool :=
  s.inFlight.isNone && !s.inputs.any Input.isCommand && decide (s.dropped = 0)

/-- The run is over and no response is a `Fault` (R106, R128). -/
def State.runSuccessful (s : State) : Bool := s.runOver && !s.faulted

/-- An `Ok` response never has bit 31 set (R81). -/
def Rsp.narrow : Rsp → Prop
  | .ok data => data.toNat < 2 ^ 31
  | .fault _ => True

/-- The invariant every step keeps: the storage is canonical and holds no byte at or beyond `L` (R20, R26); every accepted command has been answered once, was dropped by a
reset, or is in flight (R49 (b), R120; the two counters are the model's, log 12); no response is presented while a command is in
flight (the model's choice, log 8); a response presented is the last one of the run; no `Ok` so far has bit 31 set (R81). -/
structure State.Inv (s : State) : Prop where
  canonical : s.mem.wf = true
  inSequence : s.mem.below s.len = s.mem
  accounted : s.accepted = s.history.length + s.dropped + s.inFlight.toList.length
  oneAtATime : s.inFlight.isSome = true → s.rsp = none
  presented : ∀ r, s.rsp = some r → s.history.getLast? = some r
  narrow : ∀ r, r ∈ s.history → Rsp.narrow r

end Sys2Proof.Machine
end

