-- ==== Sys2Proof/Certificates/Slice0/Obligations.lean ====
section
/-! DEFINITION. The statements about the block, in the order of the spec's files. `afterResponse s r` writes out the whole state a
command leaves, so a conclusion `exec i s = .next (afterResponse s r)` says the command completes, its response, and its frame. -/

open Sys2Proof Sys2Proof.Machine

/-! ### The bit address decoder -/

/-- R60: the byte index is the quotient by 8 and the bit slice `b[IW-1:3]`, with the corner cases the rule lists. -/
def Obligations.ByteIndexIsQuotientAndSlice : Prop :=
  (∀ (iw : Nat) (b : BitVec iw), 3 ≤ iw →
    byteIndex b.toNat = b.toNat / 8 ∧ byteIndex b.toNat = (b.extractLsb' 3 (iw - 3)).toNat) ∧
  byteIndex 0 = 0 ∧ byteIndex 7 = 0 ∧ byteIndex 8 = 1 ∧ byteIndex 23 = 2 ∧
  ∀ iw : Nat, 3 ≤ iw → byteIndex (2 ^ iw - 1) = 2 ^ (iw - 3) - 1

/-- R61: the bit offset is the remainder by 8 and the slice `b[2:0]`; `7 - off` is its bitwise complement; it counts from the most
significant bit: the bit it selects stands at LSB-0 position `7 - off`, at every offset. -/
def Obligations.BitOffsetIsRemainderFromMsb : Prop :=
  (∀ (iw : Nat) (b : BitVec iw), 3 ≤ iw →
    bitOff b.toNat = b.toNat % 8 ∧ bitOff b.toNat = (b.extractLsb' 0 3).toNat ∧
    7 - bitOff b.toNat = (~~~ (b.extractLsb' 0 3)).toNat) ∧
  (∀ (byte : Byte) (b : Nat), bitOff b ≤ 7 ∧ selectBit byte (bitOff b) = byte.getLsbD (7 - bitOff b)) ∧
  (∀ byte : Byte, selectBit byte 0 = byte.msb ∧ selectBit byte 7 = byte.getLsbD 0) ∧
  bitOff 0 = 0 ∧ bitOff 7 = 7 ∧ bitOff 8 = 0 ∧ bitOff 23 = 7

/-- R62: the bounds test of one bit, its equivalent `b < 8*L`, the circuit's comparison of `b[IW-1:3]` with `L`, and the corner
cases. -/
def Obligations.InBoundsMeansInsideTheStream : Prop :=
  (∀ b len : Nat, (inBounds b len = true ↔ b / 8 < len) ∧ (inBounds b len = true ↔ b < 8 * len)) ∧
  (∀ (iw : Nat) (b len : BitVec iw), 3 ≤ iw →
    (inBounds b.toNat len.toNat = true ↔ ((b.extractLsb' 3 (iw - 3)).setWidth iw).toNat < len.toNat)) ∧
  (∀ b : Nat, inBounds b 0 = false) ∧
  (∀ len : Nat, 1 ≤ len → inBounds (8 * len - 1) len = true) ∧
  (∀ len : Nat, inBounds (8 * len) len = false) ∧
  inBounds 23 3 = true ∧ inBounds 24 3 = false

/-- R64: the test of a range's end passes exactly up to `8*L + 7`. -/
def Obligations.RangeEndTestHasSevenBitsOfSlack : Prop :=
  ∀ stop len : Nat, (rangeEndOk stop len = true ↔ stop / 8 ≤ len) ∧ (rangeEndOk stop len = true ↔ stop ≤ 8 * len + 7)

/-- R22, R63: the bit of a byte at offset `off` has weight `2^(7 - off)`, in the shift form and the slice form. -/
def Obligations.SelectedBitIsMsbFirst : Prop :=
  ∀ (byte : Byte) (off : Nat), off ≤ 7 →
    (selectBit byte off = true ↔ (byte >>> (7 - off)) &&& 1#8 = 1#8) ∧
    (boolData (selectBit byte off)).toNat = byte.toNat / 2 ^ (7 - off) % 2

/-- R91 with the quantities of R66: how many bytes a range touches, with the rule's example. -/
def Obligations.RangeTouchesAtMostFiveBytes : Prop :=
  (bytesTouched 7 38 = 5 ∧ tailBits 7 38 = 2) ∧
  ∀ start stop : Nat, start < stop → stop - start ≤ 31 →
    1 ≤ bytesTouched start stop ∧ bytesTouched start stop ≤ 5 ∧
    bytesTouched start stop = (bitOff start + rangeLen start stop + 7) / 8 ∧
    8 * bytesTouched start stop = bitOff start + rangeLen start stop + tailBits start stop ∧
    tailBits start stop ≤ 7 ∧ tailBits start stop = 7 - bitOff (stop - 1) ∧
    (bytesTouched start stop = 5 ↔ 33 ≤ bitOff start + rangeLen start stop)

/-! ### GET_BIT -/

/-- R70, R48, R63: a `getbit` in bounds completes with the stream bit as 0 or 1, and changes nothing else. -/
def Obligations.GetbitReturnsTheStreamBit : Prop :=
  ∀ (s : State) (index : Nat) (byte : Byte),
    index / 8 < s.len → s.memAnswers = true → s.mem.read (index / 8) = some byte →
    exec (.getbit index) s =
      .next (afterResponse s (.ok (BitVec.ofNat 32 (byte.toNat / 2 ^ (7 - index % 8) % 2))))

/-- R70, R72: a `getbit` at or beyond `8*L` faults with INDEX_OOB, whatever memory holds, and changes nothing else. -/
def Obligations.GetbitOutOfBoundsFaults : Prop :=
  ∀ (s : State) (index : Nat), 8 * s.len ≤ index →
    exec (.getbit index) s = .next (afterResponse s (.fault .indexOob))

/-- R71: the eight bits of byte `k`, read in ascending order, rebuild the byte; the first is its most significant bit and the last its
least significant one. -/
def Obligations.GetbitsOfAByteRebuildIt : Prop :=
  ∀ (s : State) (k : Nat) (byte : Byte), k < s.len → s.memAnswers = true → s.mem.read k = some byte →
    ∃ d : Nat → Data,
      (∀ j, j < 8 → exec (.getbit (8 * k + j)) s = .next (afterResponse s (.ok (d j)))) ∧
      (∀ j, j < 8 → (d j).toNat = (byte.toNat >>> (7 - j)) % 2) ∧
      (d 0).toNat = byte.toNat >>> 7 ∧ (d 7).toNat = byte.toNat % 2 ∧
      ∑ j ∈ Finset.range 8, (d j).toNat <<< (7 - j) = byte.toNat

/-! ### GET_BIT_RANGE -/

/-- R76: a valid non-empty range completes with the sum of its bits at their weights; the bit at `start + j` stands at position
`len - 1 - j`, and the positions from `len` up are zero. Nothing else changes. -/
def Obligations.GetrangeReturnsTheSumOfItsBits : Prop :=
  ∀ (s : State) (start stop : Nat), start < stop → stop - start ≤ 31 → stop ≤ 8 * s.len → s.suppliesRange start stop →
    ∃ d : Data, exec (.getrange start stop) s = .next (afterResponse s (.ok d)) ∧
      d.toNat = s.rangeSum start stop ∧
      (∀ j, j < stop - start → (d.getLsbD (stop - start - 1 - j)).toNat = s.streamBit (start + j)) ∧
      ∀ j, stop - start ≤ j → d.getLsbD j = false

/-- R79: an empty range is valid exactly when `s / 8 <= L`; then it answers `Ok(0)` and reads no memory (no hypothesis on memory),
else RANGE_END_OOB. -/
def Obligations.EmptyRangeReturnsZero : Prop :=
  ∀ (s : State) (at_ : Nat),
    (at_ / 8 ≤ s.len → exec (.getrange at_ at_) s = .next (afterResponse s (.ok 0#32))) ∧
    (s.len < at_ / 8 → exec (.getrange at_ at_) s = .next (afterResponse s (.fault .rangeEndOob)))

/-- R78: with the sequence supplied, `getrange` returns a value exactly for the valid operands, and every other pair faults. -/
def Obligations.GetrangeValidExactly : Prop :=
  ∀ (s : State) (start stop : Nat), s.supplied →
    (rangeValid start stop s.len → ∃ d : Data, exec (.getrange start stop) s = .next (afterResponse s (.ok d))) ∧
    (¬ rangeValid start stop s.len → ∃ c : Cause, exec (.getrange start stop) s = .next (afterResponse s (.fault c)))

/-- R80: splitting a valid range at any point gives two valid ranges whose results recombine to the whole, and down to single bits
the whole is the recombination of its `getbit`s. -/
def Obligations.RangeDecomposes : Prop :=
  ∀ (s : State) (start mid stop : Nat), s.supplied → start ≤ mid → mid ≤ stop → rangeValid start stop s.len →
    rangeValid start mid s.len ∧ rangeValid mid stop s.len ∧
    ∃ (hi lo : Data) (bit : Nat → Data),
      exec (.getrange start mid) s = .next (afterResponse s (.ok hi)) ∧
      exec (.getrange mid stop) s = .next (afterResponse s (.ok lo)) ∧
      exec (.getrange start stop) s = .next (afterResponse s (.ok ((hi <<< (stop - mid)) ||| lo))) ∧
      (∀ i, start ≤ i → i < stop → exec (.getbit i) s = .next (afterResponse s (.ok (bit i)))) ∧
      ((hi <<< (stop - mid)) ||| lo).toNat = ∑ i ∈ Finset.Ico start stop, (bit i).toNat <<< (stop - 1 - i)

/-- R81, first consequence: a result stays below `2^len`, and `len` is at most 31. -/
def Obligations.RangeResultFitsItsLength : Prop :=
  ∀ (s : State) (start stop : Nat) (d : Data),
    exec (.getrange start stop) s = .next (afterResponse s (.ok d)) → d.toNat < 2 ^ (stop - start) ∧ stop - start ≤ 31

/-- R81, second consequence: the range of one bit is `getbit`, also where the model stops. -/
def Obligations.OneBitRangeIsGetbit : Prop :=
  ∀ (s : State) (i : Nat), i < 8 * s.len → exec (.getrange i (i + 1)) s = exec (.getbit i) s

/-- R81, third and fourth consequences: an aligned field of one to three bytes is their big-endian number (R23). -/
def Obligations.AlignedFieldIsBigEndian : Prop :=
  ∀ (s : State) (k n v : Nat), 1 ≤ n → n ≤ 3 → k + n ≤ s.len → s.readBytes k n = some v →
    exec (.getrange (8 * k) (8 * (k + n))) s = .next (afterResponse s (.ok (BitVec.ofNat 32 v)))

/-- R81, locality: a range's response depends only on the bytes it touches, not on any other byte or on `L`. -/
def Obligations.RangeDependsOnlyOnTouchedBytes : Prop :=
  ∀ (s t : State) (start stop : Nat) (r : Rsp), start < stop → stop ≤ 8 * s.len → stop ≤ 8 * t.len →
    (∀ k, start / 8 ≤ k → k ≤ (stop - 1) / 8 → s.readByte k = t.readByte k) →
    exec (.getrange start stop) s = .next (afterResponse s r) →
    exec (.getrange start stop) t = .next (afterResponse t r)

/-- R81, shift invariance: with `d` bytes put in front of the sequence, the range moved by `8*d` has the same response. -/
def Obligations.RangeIsShiftInvariant : Prop :=
  ∀ (s t : State) (d start stop : Nat) (r : Rsp), t.len = s.len + d → t.memAnswers = s.memAnswers →
    (∀ k, t.mem.read (k + d) = s.mem.read k) →
    exec (.getrange start stop) s = .next (afterResponse s r) →
    exec (.getrange (start + 8 * d) (stop + 8 * d)) t = .next (afterResponse t r)

/-- R82: a reversed range never returns a value, whatever memory holds; the cause is RANGE_REVERSED unless the end is out of bounds,
which R103 reports first. -/
def Obligations.ReversedRangeFaults : Prop :=
  ∀ (s : State) (start stop : Nat), stop < start →
    exec (.getrange start stop) s =
      .next (afterResponse s (.fault (if s.len < stop / 8 then .rangeEndOob else .rangeReversed)))

/-- R83: a range of 32 bits or more never returns a value, also when all its bytes are in bounds; the cause is RANGE_TOO_WIDE unless
the end is out of bounds, which R103 reports first. A range of 31 bits that lies inside the sequence does return one. -/
def Obligations.RangeOf32BitsFaults : Prop :=
  ∀ (s : State) (start stop : Nat),
    (start + 32 ≤ stop → exec (.getrange start stop) s =
      .next (afterResponse s (.fault (if s.len < stop / 8 then .rangeEndOob else .rangeTooWide)))) ∧
    (stop = start + 31 → stop ≤ 8 * s.len → s.suppliesRange start stop →
      ∃ d : Data, exec (.getrange start stop) s = .next (afterResponse s (.ok d)))

/-! ### The multi-byte shifter -/

/-- R92: the shift-and-mask form, over the big-endian number of the bytes touched, is what `getrange` answers. -/
def Obligations.ShifterComputesTheRange : Prop :=
  ∀ (s : State) (start stop : Nat), start < stop → stop - start ≤ 31 → stop ≤ 8 * s.len → s.suppliesRange start stop →
    ∃ v : Nat, s.readBytes (firstByte start) (bytesTouched start stop) = some v ∧
      exec (.getrange start stop) s =
        .next (afterResponse s (.ok (BitVec.ofNat 32 ((v >>> tailBits start stop) % 2 ^ rangeLen start stop)))) ∧
      s.shifterData start stop = some (BitVec.ofNat 32 ((v >>> tailBits start stop) % 2 ^ rangeLen start stop))

/-- R93: both fixed-width forms over the 40-bit window compute the shift-and-mask form, with a shift amount between 2 and 39. -/
def Obligations.WindowFormsAgree : Prop :=
  ∀ v n off len : Nat, 1 ≤ n → n ≤ 5 → v < 2 ^ (8 * n) → off ≤ 7 → 1 ≤ len → len ≤ 31 → off + len ≤ 8 * n →
    (window40 v n).toNat = v <<< (8 * (5 - n)) ∧
    windowShiftMask (window40 v n) off len = BitVec.ofNat 32 (shiftMask v (8 * n - off - len) len) ∧
    windowJustify (window40 v n) off len = BitVec.ofNat 32 (shiftMask v (8 * n - off - len) len) ∧
    2 ≤ 40 - off - len ∧ 40 - off - len ≤ 39

/-- R94: an accumulator of at least `tail + len` bits, so of 38 at most, loses nothing; 37 bits are not always enough, and 32 bits
give `0x3FFFFFFF` on the rule's test vector. -/
def Obligations.DatapathNeeds38Bits : Prop :=
  (∀ (width tail len : Nat) (bytes : List Byte), tail + len ≤ width →
    accumulatedData width bytes tail len = shiftMask (bigEndian bytes) tail len) ∧
  (∃ (bytes : List Byte) (tail len : Nat), bytes.length ≤ 5 ∧ tail ≤ 7 ∧ len ≤ 31 ∧
    accumulatedData 37 bytes tail len ≠ shiftMask (bigEndian bytes) tail len) ∧
  accumulatedData 32 [0x01, 0xFF, 0xFF, 0xFF, 0xFC] 2 31 = 0x3FFFFFFF ∧
  shiftMask (bigEndian [0x01, 0xFF, 0xFF, 0xFF, 0xFC]) 2 31 = 0x7FFFFFFF

/-- R95: the byte-at-a-time form is what `getrange` answers. -/
def Obligations.ByteSerialFormComputesTheRange : Prop :=
  ∀ (s : State) (start stop : Nat), start < stop → stop - start ≤ 31 → stop ≤ 8 * s.len → s.suppliesRange start stop →
    ∃ d : Data, s.byteSerialData start stop = some d ∧
      exec (.getrange start stop) s = .next (afterResponse s (.ok d))

/-- R96: `getbit` is the shifter's case `len = 1`, `n = 1`. -/
def Obligations.GetbitIsTheShiftersOneBitCase : Prop :=
  ∀ (s : State) (i : Nat) (byte : Byte), i / 8 < s.len → s.memAnswers = true → s.mem.read (i / 8) = some byte →
    rangeLen i (i + 1) = 1 ∧ bytesTouched i (i + 1) = 1 ∧ tailBits i (i + 1) = 7 - bitOff i ∧
    s.readBytes (firstByte i) (bytesTouched i (i + 1)) = some byte.toNat ∧
    exec (.getbit i) s = .next (afterResponse s (.ok (BitVec.ofNat 32 (shiftMask byte.toNat (7 - bitOff i) 1)))) ∧
    s.shifterData i (i + 1) = some (BitVec.ofNat 32 (shiftMask byte.toNat (7 - bitOff i) 1))

/-! ### Memory and statelessness -/

/-- R27 and the frame of both commands: a command word that completes has presented one response and changed nothing else; every byte
of the sequence reads as before. -/
def Obligations.CommandsNeverWriteMemory : Prop :=
  ∀ (s t : State) (cmd : BitVec 68), runCommand cmd s = .next t →
    t.bufLen = s.bufLen ∧ t.mem = s.mem ∧ (∀ k, t.mem.read k = s.mem.read k) ∧ ∃ r : Rsp, t = afterResponse s r

/-- R25, R26: a command that returns a value reads exactly its read set: at most five bytes, all below `L`, all present; the read set
of a range is its bytes from first to last, and empty for an empty range. -/
def Obligations.ReadSetIsBelowLength : Prop :=
  (∀ (i : Instr) (s : State) (d : Data), exec i s = .next (afterResponse s (.ok d)) →
    (readSet i).length ≤ 5 ∧ ∀ k, k ∈ readSet i → k < s.len ∧ ∃ b : Byte, s.mem.read k = some b) ∧
  (∀ i : Nat, readSet (.getbit i) = [i / 8]) ∧
  (∀ start stop : Nat, start < stop →
    ∀ k, k ∈ readSet (.getrange start stop) ↔ start / 8 ≤ k ∧ k ≤ (stop - 1) / 8) ∧
  ∀ start : Nat, readSet (.getrange start start) = []

/-- R26: `MemRead` has no value at or beyond `L`, whatever the storage holds there: not one byte, not several of which one lies there,
and no form of the shifter yields a value for a range that ends beyond `8*L`. Below `L`, with reads answered, it is the byte. -/
def Obligations.ReadsBeyondLengthHaveNoValue : Prop :=
  (∀ (s : State) (k : Nat), (s.len ≤ k → s.readByte k = none) ∧
    (k < s.len → s.memAnswers = true → s.readByte k = s.mem.read k)) ∧
  (∀ (s : State) (k n : Nat), 1 ≤ n → s.len < k + n → s.readBytes k n = none) ∧
  (∀ (s : State) (b : Nat), 8 * s.len ≤ b → s.bitAt b = none) ∧
  ∀ (s : State) (start stop : Nat), start < stop → 8 * s.len < stop →
    s.shifterData start stop = none ∧ s.byteSerialData start stop = none

/-- R10, R26: the response to a command word depends on the word, `L` and the bytes below `L`, and on nothing else in the state. -/
def Obligations.ResponseDependsOnlyOnTheSequence : Prop :=
  ∀ (s t : State) (cmd : BitVec 68) (r : Rsp), s.bufLen = t.bufLen → s.memAnswers = t.memAnswers →
    (∀ k, k < s.len → s.mem.read k = t.mem.read k) →
    runCommand cmd s = .next (afterResponse s r) → runCommand cmd t = .next (afterResponse t r)

/-- R12, R32 (c), R106: a command has the same response whether another command, faulting or not, was answered before it or not. -/
def Obligations.EarlierCommandsDoNotMatter : Prop :=
  ∀ (s t : State) (first second : BitVec 68) (r : Rsp), runCommand first s = .next t →
    (runCommand second s = .next (afterResponse s r) ↔ runCommand second t = .next (afterResponse t r))

/-- R20: the canonical form: two canonical storages that read alike are equal data. -/
def Obligations.CanonicalStorageIsDeterminedByItsBytes : Prop :=
  ∀ m n : Memory, m.wf = true → n.wf = true → (∀ k, m.read k = n.read k) → m = n

/-! ### Encodings -/

/-- Decode and encode agree: for every index width and every instruction whose operands fit it, decoding the encoding gives the
instruction back (R40, R42, R45). -/
def Obligations.DecodeInvertsEncode : Prop :=
  ∀ (iw : Nat) (i : Instr), i.wellFormed iw = true → decodeCmd iw (encodeCmd iw i) = .ok i

/-- Each command word has one meaning: a word that decodes is the encoding of its instruction, whose operands fit (R40, R45). -/
def Obligations.EncodeInvertsDecode : Prop :=
  ∀ (iw : Nat) (cmd : BitVec (Config.cmdWidth iw)) (i : Instr), decodeCmd iw cmd = .ok i →
    encodeCmd iw i = cmd ∧ i.wellFormed iw = true

/-- R40, R41: the three fields of a command word are its bit slices, and the word is the number they spell side by side. -/
def Obligations.CommandWordIsItsThreeFields : Prop :=
  ∀ (iw : Nat) (cmd : BitVec (Config.cmdWidth iw)),
    cmd.toNat = cmdB iw cmd * 2 ^ (iw + 4) + cmdA iw cmd * 2 ^ 4 + (cmdOp iw cmd).toNat ∧
    cmdA iw cmd < 2 ^ iw ∧ cmdB iw cmd < 2 ^ iw

/-- R45: every word is exactly one of a legal `getbit`, a legal `getrange`, or illegal, as its fields say. -/
def Obligations.DecoderPartitionsAllWords : Prop :=
  ∀ (iw : Nat) (cmd : BitVec (Config.cmdWidth iw)),
    (cmdOp iw cmd = 1#4 → cmdB iw cmd = 0 → decodeCmd iw cmd = .ok (.getbit (cmdA iw cmd))) ∧
    (cmdOp iw cmd = 1#4 → cmdB iw cmd ≠ 0 → decodeCmd iw cmd = .error (.reservedField (cmdB iw cmd))) ∧
    (cmdOp iw cmd = 2#4 → decodeCmd iw cmd = .ok (.getrange (cmdA iw cmd) (cmdB iw cmd))) ∧
    (cmdOp iw cmd ≠ 1#4 → cmdOp iw cmd ≠ 2#4 → decodeCmd iw cmd = .error (.reservedOp (cmdOp iw cmd)))

/-- The words the spec writes out decode to what it says they are (30_encoding.md section 9, 95_test_vectors.md section 2.1). -/
def Obligations.WrittenOutWordsDecode : Prop :=
  decode 0x00000000000000171#68 = .ok (.getbit 23) ∧
  decode 0x0000000C000000052#68 = .ok (.getrange 5 12) ∧
  decode 0xFFFFFFFFFFFFFFFF2#68 = .ok (.getrange 4294967295 4294967295) ∧
  decode 0x00000001000000021#68 = .error (.reservedField 1) ∧
  decode 0x0000000C000000053#68 = .error (.reservedOp 3#4)

/-- R47: the layout of a response word, whatever the free data wires of a fault carry. -/
def Obligations.ResponseWordLayout : Prop :=
  (∀ (free d : Data), (Rsp.ok d).toWire free = d.setWidth 36) ∧
  ∀ (free : Data) (c : Cause), ((Rsp.fault c).toWire free).extractLsb' 35 1 = 1#1 ∧
    ((Rsp.fault c).toWire free).extractLsb' 32 3 = c.code

/-- R47, R101: a response word spells its response, whatever the free data wires carry; the word on port `rsp` while a response is
presented is such a word. -/
def Obligations.ResponseWordSpellsItsResponse : Prop :=
  (∀ (free : Data) (r : Rsp), Rsp.ofWire (r.toWire free) = some r) ∧
  ∀ (s : State) (r : Rsp), s.rsp = some r → Rsp.ofWire s.rspPort = some r

/-- R101, U9: each cause has the code the rule's table gives it; a code reads back as its cause; codes 0 and 7 are no cause's, and the
six codes are distinct. -/
def Obligations.ReservedCauseCodesNeverAppear : Prop :=
  (Cause.code .illegalCmd = 1#3 ∧ Cause.code .indexOob = 2#3 ∧ Cause.code .rangeEndOob = 3#3 ∧
    Cause.code .rangeReversed = 4#3 ∧ Cause.code .rangeTooWide = 5#3 ∧ Cause.code .rangeBitOob = 6#3) ∧
  (Cause.ofCode 0#3 = none ∧ Cause.ofCode 7#3 = none) ∧
  (∀ c : Cause, c.code ≠ 0#3 ∧ c.code ≠ 7#3 ∧ Cause.ofCode c.code = some c) ∧
  ∀ c d : Cause, c.code = d.code → c = d

/-- R50: an instruction printed in the assembler syntax reads back as itself, for every operand that a command word can hold. The
printer's form (decimal, single spaces) is the model's choice (log 16). -/
def Obligations.PrintedInstructionReadsBack : Prop :=
  ∀ i : Instr, i.wellFormed Config.indexWidth = true → parseLine (printInstr i) = some (.command i)

/-! ### Contract violations -/

/-- R103 with the conditions of R101: a command that meets several causes reports the first in the rule's order. That the last clause
holds also where byte reads are never answered is the model's reading (log 10): R25 lets a range that faults with RANGE_BIT_OOB read
bytes inside the sequence, and R126 promises an answer only if reads are answered. -/
def Obligations.FaultsInPriorityOrder : Prop :=
  (∀ (s : State) (cmd : BitVec 68) (e : DecodeError), decode cmd = .error e →
    runCommand cmd s = .next (afterResponse s (.fault .illegalCmd))) ∧
  (∀ (s : State) (index : Nat), s.len ≤ index / 8 →
    exec (.getbit index) s = .next (afterResponse s (.fault .indexOob))) ∧
  ∀ (s : State) (start stop : Nat),
    (s.len < stop / 8 → exec (.getrange start stop) s = .next (afterResponse s (.fault .rangeEndOob))) ∧
    (stop / 8 ≤ s.len → stop < start →
      exec (.getrange start stop) s = .next (afterResponse s (.fault .rangeReversed))) ∧
    (stop / 8 ≤ s.len → start ≤ stop → 32 ≤ stop - start →
      exec (.getrange start stop) s = .next (afterResponse s (.fault .rangeTooWide))) ∧
    (stop / 8 ≤ s.len → start < stop → stop - start ≤ 31 → 8 * s.len < stop →
      exec (.getrange start stop) s = .next (afterResponse s (.fault .rangeBitOob)))

/-- R100: whether a command is a contract violation, and with which cause, depends on its operands and `L` alone, never on the bytes
or on whether they can be read. (That the cause is settled before memory is looked at is the reading of log 10.) -/
def Obligations.ViolationDependsOnlyOnOperandsAndLength : Prop :=
  ∀ (s t : State) (i : Instr) (c : Cause), s.len = t.len →
    exec i s = .next (afterResponse s (.fault c)) → exec i t = .next (afterResponse t (.fault c))

/-- R106, R128: a response once given stays in the run, so later commands never clear the run's fault mark, and a faulted run is not
successful at any later state. That responses and mark survive an `rst` step too is the model's choice (log 12). -/
def Obligations.FaultMarkIsNeverCleared : Prop :=
  ∀ s t : State, step s = .next t →
    s.history <+: t.history ∧
    (s.faulted = true → t.faulted = true ∧ s.runSuccessful = false ∧ t.runSuccessful = false)

/-! ### Stops -/

/-- U16, U7 (logs 4, 5): a valid command whose byte is not answered stops with the fault, and one whose byte the environment lacks is
refused; both forms. -/
def Obligations.UnreadableByteStopsTheCommand : Prop :=
  (∀ (s : State) (i : Nat), i / 8 < s.len →
    (s.memAnswers = false → exec (.getbit i) s = .fault .readUnanswered) ∧
    (s.memAnswers = true → s.mem.read (i / 8) = none → exec (.getbit i) s = .refused .byteMissing)) ∧
  ∀ (s : State) (start stop i : Nat), start ≤ i → i < stop → stop - start ≤ 31 → stop ≤ 8 * s.len →
    (s.memAnswers = false → exec (.getrange start stop) s = .fault .readUnanswered) ∧
    (s.memAnswers = true → s.mem.read (i / 8) = none → exec (.getrange start stop) s = .refused .byteMissing)

/-- R124, R29, U5: a command in flight during which the owner changes `L` or a byte below `L` is given no meaning. (What counts as a
change: log 6.) -/
def Obligations.ChangingTheSequenceInFlightIsRefused : Prop :=
  ∀ (s : State) (cmd : BitVec 68) (rest : List Input), s.inFlight = some cmd →
    (∀ (len : BitVec 32) (bytes : List Byte), s.inputs = .present len bytes :: rest →
      (len ≠ s.bufLen ∨ ∃ k, k < s.len ∧ s.mem.read k ≠ bytes[k]?) → step s = .refused .sequenceChanged) ∧
    ∀ (index : Nat) (byte : Byte), s.inputs = .write index byte :: rest → index < s.len →
      s.mem.read index ≠ some byte → step s = .refused .sequenceChanged

/-! ### Steps: transactions, environment, reset -/

/-- A step runs the decoded instruction: with a command word in flight that decodes to `i`, and the environment's next move waiting for
the answer, the step is `exec i` at that state (R45, R49). Which of the environment's moves wait is the model's choice (log 7). -/
def Obligations.StepRunsTheDecodedInstruction : Prop :=
  ∀ (s : State) (cmd : BitVec 68) (i : Instr), s.inFlight = some cmd → s.quiet = true → decode cmd = .ok i →
    step s = exec i s

/-- The word that `withFetchWord` places is what the next step runs. -/
def Obligations.NextStepRunsThePlacedWord : Prop :=
  ∀ (s : State) (nbits w : Nat) (i : Instr), decodeTableWord nbits w = some i →
    step (s.withFetchWord nbits w) = exec i (s.withFetchWord nbits w)

/-- R43, R44, R102: a word with a reserved `op`, or a `getbit` word whose `b` is not zero, is answered `Fault(ILLEGAL_CMD)` whatever its
other fields, `L` and memory are; the all-zeros and the all-ones words among them. -/
def Obligations.IllegalCommandIsAnsweredWithAFault : Prop :=
  (∀ (s : State) (cmd : BitVec 68), s.inFlight = some cmd → s.quiet = true →
    (cmdOp 32 cmd ≠ 1#4 ∧ cmdOp 32 cmd ≠ 2#4) ∨ (cmdOp 32 cmd = 1#4 ∧ cmdB 32 cmd ≠ 0) →
    step s = .next (afterResponse s (.fault .illegalCmd))) ∧
  cmdOp 32 0#68 = 0#4 ∧ cmdOp 32 (BitVec.allOnes 68) = 15#4

/-- R49 (a): an idle block accepts the command presented; while one is in flight the next waits and the block answers. That
acceptance ends the presentation of the previous response (`rsp := none`) is the model's choice (log 8: R49 leaves open how long
`rsp_valid` stays up), and so is the count `accepted` (log 12). -/
def Obligations.OneCommandAtATime : Prop :=
  ∀ (s : State) (cmd : BitVec 68) (rest : List Input), s.inputs = .command cmd :: rest →
    (s.inFlight = none → step s = .next { s with
      inputs := rest, inFlight := some cmd, rsp := none, accepted := s.accepted + 1 }) ∧
    ∀ word : BitVec 68, s.inFlight = some word → step s = runCommand word s

/-- R126: a command in flight is answered, whatever its operands and whatever its word, provided the environment supplies the byte
sequence and answers reads, and lets the block answer. R126 promises an answer after a finite time; that it is the very next step is
the model's choice (log 7). -/
def Obligations.AcceptedCommandIsAnswered : Prop :=
  ∀ (s : State) (cmd : BitVec 68), s.inFlight = some cmd → s.quiet = true → s.supplied →
    ∃ r : Rsp, step s = .next (afterResponse s r)

/-- R16, R32 (d), R121: between commands the owner may replace the byte sequence or write a byte of it, and reads then return what it
put there; at or beyond the new `L` there is no byte (R26), and a write there leaves the state as it is (log 6). -/
def Obligations.OwnerMayChangeTheSequenceBetweenCommands : Prop :=
  ∀ (s : State) (rest : List Input), s.inFlight = none →
    (∀ (len : BitVec 32) (bytes : List Byte), s.inputs = .present len bytes :: rest →
      ∃ t : State, step s = .next t ∧ t = { s with inputs := rest, bufLen := len, mem := t.mem } ∧
        (∀ k, k < len.toNat → t.mem.read k = bytes[k]?) ∧ ∀ k, len.toNat ≤ k → t.mem.read k = none) ∧
    ∀ (index : Nat) (byte : Byte), s.inputs = .write index byte :: rest →
      (index < s.len → ∃ t : State, step s = .next t ∧ t = { s with inputs := rest, mem := t.mem } ∧
        t.mem.read index = some byte ∧ ∀ k, k ≠ index → t.mem.read k = s.mem.read k) ∧
      (s.len ≤ index → step s = .next { s with inputs := rest })

/-- Logs 2, 5, 7 (R126): the moves that touch no byte. `answering` says whether reads are answered from now on, in flight or not; an
idle block takes an `await` off the host's list, and stays as it is when there is nothing to do; a command in flight is answered
when the host awaits or has no move left. -/
def Obligations.MovesThatTouchNoByte : Prop :=
  ∀ (s : State) (rest : List Input),
    (∀ live : Bool, s.inputs = .answering live :: rest →
      step s = .next { s with inputs := rest, memAnswers := live }) ∧
    (s.inFlight = none → s.inputs = .await :: rest → step s = .next { s with inputs := rest }) ∧
    (s.inFlight = none → s.inputs = [] → step s = .next s) ∧
    ∀ word : BitVec 68, s.inFlight = some word → (s.inputs = .await :: rest ∨ s.inputs = []) →
      step s = runCommand word s

/-- Log 6 (R20, R124): while a command is in flight, presenting the same `L` with the same bytes below it, writing the byte an index
already holds, or writing at or beyond `L`, is no change of the sequence and goes through: nothing but the list of moves differs. -/
def Obligations.UnchangedSequenceInFlightGoesThrough : Prop :=
  ∀ (s : State) (cmd : BitVec 68) (rest : List Input), s.Inv → s.inFlight = some cmd →
    (∀ bytes : List Byte, s.inputs = .present s.bufLen bytes :: rest →
      (∀ k, k < s.len → s.mem.read k = bytes[k]?) → step s = .next { s with inputs := rest }) ∧
    ∀ (index : Nat) (byte : Byte), s.inputs = .write index byte :: rest →
      (s.len ≤ index ∨ s.mem.read index = some byte) → step s = .next { s with inputs := rest }

/-- R120, R18: `rst` drops a command in flight unanswered and withdraws the response; the byte sequence, the environment and the
responses already given are untouched. That the responses given survive and that the host's count of dropped commands grows is the
model's choice (log 12). -/
def Obligations.ResetDropsTheCommandInFlight : Prop :=
  ∀ (s : State) (rest : List Input), s.inputs = .rst :: rest →
    step s = .next { s with
      inputs := rest, inFlight := none, rsp := none, dropped := s.dropped + (if s.inFlight.isSome then 1 else 0) }

/-- R18, R120: after reset the block is idle and ready, and no response is pending. -/
def Obligations.ResetLeavesTheBlockIdle : Prop :=
  State.reset.inFlight = none ∧ State.reset.reqReady = true ∧ State.reset.rsp = none ∧ State.reset.rspValid = false ∧
  State.reset.history = []

/-- The invariant of Safety holds after reset. The reset contents of the sequence are the model's choice (log 3). -/
def Obligations.ResetMeetsTheInvariant : Prop := State.reset.Inv

/-- Every step keeps the invariant: canonical storage with no byte at or beyond `L` (R20, R26), every accepted command answered once,
dropped or in flight (R49 (b), R120), the response presented is the run's last, and no `Ok` has bit 31 set (R81). That no response is
presented while a command is in flight is the model's choice (log 8: R49 leaves open how long `rsp_valid` stays up); the counters
`accepted` and `dropped` that account for the commands are the model's own (log 12). -/
def Obligations.StepKeepsTheInvariant : Prop :=
  ∀ s t : State, s.Inv → step s = .next t → t.Inv

/-- R128: when a run is over, every command accepted in it has been answered. The counters are the model's own (log 12), and that a
run with a dropped command is never over is its reading (log 13). -/
def Obligations.RunOverMeansAllAnswered : Prop :=
  ∀ s : State, s.Inv → s.runOver = true → s.accepted = s.history.length
end

