-- ==== Sys2Proof/Laws/Memory.lean ====
section
/-! SUPPORT. The laws of the byte sequence's storage: read after write, and every operation keeps the canonical form. -/

namespace Sys2Proof.Machine

@[simp] theorem Memory.read_write_same (m : Memory) (i : Nat) (v : Byte) : (m.write i v).read i = some v := by
  induction m with
  | nil => simp [Memory.write, Memory.read]
  | cons c rest ih =>
    obtain ⟨k, b⟩ := c
    unfold Memory.write
    split
    · simp [Memory.read]
    · split
      · simp [Memory.read]
      · simp_all [Memory.read]

theorem Memory.read_write_other (m : Memory) {i j : Nat} (v : Byte) (h : j ≠ i) :
    (m.write i v).read j = m.read j := by
  induction m with
  | nil => simp [Memory.write, Memory.read, h]
  | cons c rest ih =>
    obtain ⟨k, b⟩ := c
    unfold Memory.write
    split
    · simp [Memory.read, h]
    · split
      · rename_i hk
        subst hk
        simp [Memory.read, h]
      · simp only [Memory.read, ih]

/-- A list of bytes laid out from `k` reads back by position. -/
theorem Memory.read_layOut (bytes : List Byte) (k i : Nat) :
    (Memory.layOut k bytes).read i = if k ≤ i then bytes[i - k]? else none := by
  induction bytes generalizing k with
  | nil => simp [Memory.layOut, Memory.read]
  | cons b rest ih =>
    simp only [Memory.layOut, Memory.read, ih]
    rcases Nat.lt_trichotomy i k with h | h | h
    · simp [Nat.not_le.2 h, Nat.ne_of_lt h, show ¬ k + 1 ≤ i by omega]
    · simp [h]
    · simp only [Nat.ne_of_gt h, if_false, Nat.succ_le_of_lt h, Nat.le_of_lt h, if_true]
      rw [show i - k = (i - (k + 1)) + 1 by omega, List.getElem?_cons_succ]

@[simp] theorem Memory.read_ofBytes (bytes : List Byte) (i : Nat) : (Memory.ofBytes bytes).read i = bytes[i]? := by
  simp [Memory.ofBytes, Memory.read_layOut]

theorem Memory.risesFrom_mono {m : Memory} {j k : Nat} (h : Memory.risesFrom k m = true) (hjk : j ≤ k) :
    Memory.risesFrom j m = true := by
  cases m with
  | nil => rfl
  | cons c rest =>
    simp only [Memory.risesFrom, Bool.and_eq_true, decide_eq_true_eq] at h ⊢
    exact ⟨by omega, h.2⟩

theorem Memory.risesFrom_write {m : Memory} {k i : Nat} (v : Byte) (h : Memory.risesFrom k m = true) (hi : k ≤ i) :
    Memory.risesFrom k (m.write i v) = true := by
  induction m generalizing k with
  | nil => simp [Memory.write, Memory.risesFrom, hi]
  | cons c rest ih =>
    obtain ⟨j, b⟩ := c
    simp only [Memory.risesFrom, Bool.and_eq_true, decide_eq_true_eq] at h
    unfold Memory.write
    split
    · simp [Memory.risesFrom, hi, h.2]; omega
    · split
      · simp_all [Memory.risesFrom]
      · simp [Memory.risesFrom, h.1, ih h.2 (by omega)]

/-- A write keeps the canonical form. -/
theorem Memory.wf_write {m : Memory} (i : Nat) (v : Byte) (h : m.wf = true) : (m.write i v).wf = true :=
  Memory.risesFrom_write v h (Nat.zero_le i)

theorem Memory.risesFrom_layOut (bytes : List Byte) (k : Nat) : Memory.risesFrom k (Memory.layOut k bytes) = true := by
  induction bytes generalizing k with
  | nil => rfl
  | cons b rest ih => simp [Memory.layOut, Memory.risesFrom, ih]

/-- A byte sequence laid out from index 0 has the canonical form. -/
theorem Memory.wf_ofBytes (bytes : List Byte) : (Memory.ofBytes bytes).wf = true :=
  Memory.risesFrom_layOut bytes 0

theorem Memory.risesFrom_below {m : Memory} {k : Nat} (len : Nat) (h : Memory.risesFrom k m = true) :
    Memory.risesFrom k (m.below len) = true := by
  induction m generalizing k with
  | nil => rfl
  | cons c rest ih =>
    obtain ⟨j, b⟩ := c
    simp only [Memory.risesFrom, Bool.and_eq_true, decide_eq_true_eq] at h
    have hrest := ih h.2
    by_cases hj : j < len
    · simpa [Memory.below, hj, Memory.risesFrom, h.1] using hrest
    · have := Memory.risesFrom_mono hrest (show k ≤ j + 1 by omega)
      simpa [Memory.below, hj] using this

/-- The part of a canonical storage that is the byte sequence is canonical. -/
theorem Memory.wf_below {m : Memory} (len : Nat) (h : m.wf = true) : (m.below len).wf = true :=
  Memory.risesFrom_below len h

/-- The part of the storage below `len` reads as the storage does there, and as nothing beyond. -/
theorem Memory.read_below (m : Memory) (len i : Nat) : (m.below len).read i = if i < len then m.read i else none := by
  induction m with
  | nil => simp [Memory.below, Memory.read]
  | cons c rest ih =>
    obtain ⟨j, b⟩ := c
    by_cases hj : j < len
    · have : Memory.below len ((j, b) :: rest) = (j, b) :: Memory.below len rest := by simp [Memory.below, hj]
      simp only [this, Memory.read, ih]
      by_cases hij : i = j
      · simp [hij, hj]
      · simp [hij]
    · have : Memory.below len ((j, b) :: rest) = Memory.below len rest := by simp [Memory.below, hj]
      simp only [this, Memory.read, ih]
      by_cases hij : i = j
      · simp [hij, hj]
      · simp [hij]

/-- The entries of a storage after a write: the one written, and entries it had. -/
theorem Memory.mem_write {m : Memory} {i : Nat} {v : Byte} {c : Host.Cell} (h : c ∈ m.write i v) : c = (i, v) ∨ c ∈ m := by
  induction m with
  | nil => exact .inl (by simpa [Memory.write] using h)
  | cons d rest ih =>
    unfold Memory.write at h
    split at h
    · simpa using h
    · split at h
      · rcases List.mem_cons.1 h with rfl | h'
        · exact .inl rfl
        · exact .inr (List.mem_cons_of_mem _ h')
      · rcases List.mem_cons.1 h with rfl | h'
        · exact .inr List.mem_cons_self
        · exact (ih h').imp id (List.mem_cons_of_mem _)

/-- A storage is within `len` exactly when every entry's index is below it. -/
theorem Memory.below_eq_self {m : Memory} {len : Nat} : m.below len = m ↔ ∀ c, c ∈ m → c.1 < len := by
  simp [Memory.below, List.filter_eq_self]

@[simp] theorem Memory.below_below (m : Memory) (len : Nat) : (m.below len).below len = m.below len := by
  simp [Memory.below]

/-- A write below `len` keeps a storage within `len`. -/
theorem Memory.below_write {m : Memory} {len i : Nat} (v : Byte) (h : m.below len = m) (hi : i < len) :
    (m.write i v).below len = m.write i v := by
  rw [Memory.below_eq_self] at h ⊢
  intro c hc
  rcases Memory.mem_write hc with rfl | hc
  · exact hi
  · exact h c hc

/-- Writing the byte that a canonical storage already holds changes nothing. -/
theorem Memory.write_of_read {m : Memory} {k i : Nat} {v : Byte} (hw : Memory.risesFrom k m = true) (h : m.read i = some v) :
    m.write i v = m ∧ k ≤ i := by
  induction m generalizing k with
  | nil => cases h
  | cons c rest ih =>
    obtain ⟨j, b⟩ := c
    simp only [Memory.risesFrom, Bool.and_eq_true, decide_eq_true_eq] at hw
    by_cases hij : i = j
    · subst hij
      have hb : b = v := by simpa [Memory.read] using h
      exact ⟨by simp [Memory.write, hb], hw.1⟩
    · have hr : Memory.read rest i = some v := by simpa [Memory.read, hij] using h
      obtain ⟨h1, h2⟩ := ih hw.2 hr
      exact ⟨by simp [Memory.write, hij, show ¬ i < j by omega, h1], by omega⟩

theorem Memory.wf_reset : State.reset.mem.wf = true := rfl

end Sys2Proof.Machine
end

