-- ==== Sys2Proof/Laws/State.lean ====
section
/-! SUPPORT. One lemma per field per update of the state, true by `rfl`, so that no proof unfolds a record update. -/

namespace Sys2Proof.Machine

@[simp] theorem State.answer_bufLen (r : Rsp) (s : State) : (s.answer r).bufLen = s.bufLen := rfl
@[simp] theorem State.answer_mem (r : Rsp) (s : State) : (s.answer r).mem = s.mem := rfl
@[simp] theorem State.answer_memAnswers (r : Rsp) (s : State) : (s.answer r).memAnswers = s.memAnswers := rfl
@[simp] theorem State.answer_inFlight (r : Rsp) (s : State) : (s.answer r).inFlight = none := rfl
@[simp] theorem State.answer_rsp (r : Rsp) (s : State) : (s.answer r).rsp = some r := rfl
@[simp] theorem State.answer_inputs (r : Rsp) (s : State) : (s.answer r).inputs = s.inputs := rfl
@[simp] theorem State.answer_history (r : Rsp) (s : State) : (s.answer r).history = s.history ++ [r] := rfl
@[simp] theorem State.answer_accepted (r : Rsp) (s : State) : (s.answer r).accepted = s.accepted := rfl
@[simp] theorem State.answer_dropped (r : Rsp) (s : State) : (s.answer r).dropped = s.dropped := rfl

@[simp] theorem State.accept_bufLen (cmd : BitVec Config.commandBits) (s : State) : (s.accept cmd).bufLen = s.bufLen := rfl
@[simp] theorem State.accept_mem (cmd : BitVec Config.commandBits) (s : State) : (s.accept cmd).mem = s.mem := rfl
@[simp] theorem State.accept_memAnswers (cmd : BitVec Config.commandBits) (s : State) : (s.accept cmd).memAnswers = s.memAnswers := rfl
@[simp] theorem State.accept_inFlight (cmd : BitVec Config.commandBits) (s : State) : (s.accept cmd).inFlight = some cmd := rfl
@[simp] theorem State.accept_rsp (cmd : BitVec Config.commandBits) (s : State) : (s.accept cmd).rsp = none := rfl
@[simp] theorem State.accept_inputs (cmd : BitVec Config.commandBits) (s : State) : (s.accept cmd).inputs = s.inputs := rfl
@[simp] theorem State.accept_history (cmd : BitVec Config.commandBits) (s : State) : (s.accept cmd).history = s.history := rfl
@[simp] theorem State.accept_accepted (cmd : BitVec Config.commandBits) (s : State) : (s.accept cmd).accepted = s.accepted + 1 := rfl
@[simp] theorem State.accept_dropped (cmd : BitVec Config.commandBits) (s : State) : (s.accept cmd).dropped = s.dropped := rfl

@[simp] theorem State.assertRst_bufLen (s : State) : s.assertRst.bufLen = s.bufLen := rfl
@[simp] theorem State.assertRst_mem (s : State) : s.assertRst.mem = s.mem := rfl
@[simp] theorem State.assertRst_memAnswers (s : State) : s.assertRst.memAnswers = s.memAnswers := rfl
@[simp] theorem State.assertRst_inFlight (s : State) : s.assertRst.inFlight = none := rfl
@[simp] theorem State.assertRst_rsp (s : State) : s.assertRst.rsp = none := rfl
@[simp] theorem State.assertRst_inputs (s : State) : s.assertRst.inputs = s.inputs := rfl
@[simp] theorem State.assertRst_history (s : State) : s.assertRst.history = s.history := rfl
@[simp] theorem State.assertRst_accepted (s : State) : s.assertRst.accepted = s.accepted := rfl
@[simp] theorem State.assertRst_dropped (s : State) : s.assertRst.dropped = s.dropped + s.inFlight.toList.length := rfl

@[simp] theorem State.install_bufLen (len : BitVec Config.indexWidth) (bytes : List Byte) (s : State) : (s.install len bytes).bufLen = len := rfl
@[simp] theorem State.install_mem (len : BitVec Config.indexWidth) (bytes : List Byte) (s : State) : (s.install len bytes).mem = (Memory.ofBytes bytes).below len.toNat := rfl
@[simp] theorem State.install_memAnswers (len : BitVec Config.indexWidth) (bytes : List Byte) (s : State) : (s.install len bytes).memAnswers = s.memAnswers := rfl
@[simp] theorem State.install_inFlight (len : BitVec Config.indexWidth) (bytes : List Byte) (s : State) : (s.install len bytes).inFlight = s.inFlight := rfl
@[simp] theorem State.install_rsp (len : BitVec Config.indexWidth) (bytes : List Byte) (s : State) : (s.install len bytes).rsp = s.rsp := rfl
@[simp] theorem State.install_inputs (len : BitVec Config.indexWidth) (bytes : List Byte) (s : State) : (s.install len bytes).inputs = s.inputs := rfl
@[simp] theorem State.install_history (len : BitVec Config.indexWidth) (bytes : List Byte) (s : State) : (s.install len bytes).history = s.history := rfl
@[simp] theorem State.install_accepted (len : BitVec Config.indexWidth) (bytes : List Byte) (s : State) : (s.install len bytes).accepted = s.accepted := rfl
@[simp] theorem State.install_dropped (len : BitVec Config.indexWidth) (bytes : List Byte) (s : State) : (s.install len bytes).dropped = s.dropped := rfl

@[simp] theorem State.poke_bufLen (index : Nat) (byte : Byte) (s : State) : (s.poke index byte).bufLen = s.bufLen := rfl
@[simp] theorem State.poke_mem (index : Nat) (byte : Byte) (s : State) : (s.poke index byte).mem = if index < s.len then s.mem.write index byte else s.mem := rfl
@[simp] theorem State.poke_memAnswers (index : Nat) (byte : Byte) (s : State) : (s.poke index byte).memAnswers = s.memAnswers := rfl
@[simp] theorem State.poke_inFlight (index : Nat) (byte : Byte) (s : State) : (s.poke index byte).inFlight = s.inFlight := rfl
@[simp] theorem State.poke_rsp (index : Nat) (byte : Byte) (s : State) : (s.poke index byte).rsp = s.rsp := rfl
@[simp] theorem State.poke_inputs (index : Nat) (byte : Byte) (s : State) : (s.poke index byte).inputs = s.inputs := rfl
@[simp] theorem State.poke_history (index : Nat) (byte : Byte) (s : State) : (s.poke index byte).history = s.history := rfl
@[simp] theorem State.poke_accepted (index : Nat) (byte : Byte) (s : State) : (s.poke index byte).accepted = s.accepted := rfl
@[simp] theorem State.poke_dropped (index : Nat) (byte : Byte) (s : State) : (s.poke index byte).dropped = s.dropped := rfl

/-- A command's effect is the whole record that the statements write out. -/
theorem State.answer_eq_afterResponse (r : Rsp) (s : State) : s.answer r = afterResponse s r := rfl

@[simp] theorem afterResponse_bufLen (s : State) (r : Rsp) : (afterResponse s r).bufLen = s.bufLen := rfl
@[simp] theorem afterResponse_mem (s : State) (r : Rsp) : (afterResponse s r).mem = s.mem := rfl
@[simp] theorem afterResponse_memAnswers (s : State) (r : Rsp) : (afterResponse s r).memAnswers = s.memAnswers := rfl
@[simp] theorem afterResponse_inFlight (s : State) (r : Rsp) : (afterResponse s r).inFlight = none := rfl
@[simp] theorem afterResponse_rsp (s : State) (r : Rsp) : (afterResponse s r).rsp = some r := rfl
@[simp] theorem afterResponse_inputs (s : State) (r : Rsp) : (afterResponse s r).inputs = s.inputs := rfl
@[simp] theorem afterResponse_history (s : State) (r : Rsp) : (afterResponse s r).history = s.history ++ [r] := rfl
@[simp] theorem afterResponse_accepted (s : State) (r : Rsp) : (afterResponse s r).accepted = s.accepted := rfl
@[simp] theorem afterResponse_dropped (s : State) (r : Rsp) : (afterResponse s r).dropped = s.dropped := rfl

end Sys2Proof.Machine
end

