-- ==== Sys2Proof/Laws/Ops.lean ====
section
/-! SUPPORT. For each shared operation one lemma that says once everything it can do. -/

namespace Sys2Proof.Machine

@[simp] theorem State.raise_eq (cause : Cause) (s : State) :
    s.raise cause = .next (s.answer (.fault cause)) := rfl

/-- `deliver` presents the value, or stops: with a fault if reads go unanswered, with a refusal if the byte is missing. -/
theorem State.deliver_cases (data : Option Data) (s : State) :
    (∃ d, data = some d ∧ s.deliver data = .next (s.answer (.ok d))) ∨
    (data = none ∧ s.memAnswers = true ∧ s.deliver data = .refused .byteMissing) ∨
    (data = none ∧ s.memAnswers = false ∧ s.deliver data = .fault .readUnanswered) := by
  cases data with
  | some d => exact .inl ⟨d, rfl, rfl⟩
  | none => cases h : s.memAnswers <;> simp [State.deliver, h]

theorem State.readByte_eq_some {s : State} {k : Nat} {b : Byte} :
    s.readByte k = some b ↔ k < s.len ∧ s.memAnswers = true ∧ s.mem.read k = some b := by
  unfold State.readByte; split <;> simp_all

/-- R26: a byte index at or beyond `L` has no value. -/
theorem State.readByte_of_le {s : State} {k : Nat} (h : s.len ≤ k) : s.readByte k = none := by
  simp [State.readByte, Nat.not_lt.2 h]

theorem State.readByte_of_lt {s : State} {k : Nat} (h : k < s.len) (ha : s.memAnswers = true) :
    s.readByte k = s.mem.read k := by
  simp [State.readByte, h, ha]

theorem State.bitAt_eq_some {s : State} {i : Nat} {t : Bool} :
    s.bitAt i = some t ↔ ∃ b, s.readByte (byteIndex i) = some b ∧ selectBit b (bitOff i) = t := by
  simp [State.bitAt]

/-- A sequence of at least `len` bytes put in place is supplied, if reads are answered (R121, R122). -/
theorem State.install_supplied {len : BitVec Config.indexWidth} {bytes : List Byte} {s : State}
    (hl : len.toNat ≤ bytes.length) (ha : s.memAnswers = true) : (s.install len bytes).supplied := by
  refine ⟨ha, fun k hk => ?_⟩
  change k < len.toNat at hk
  exact ⟨bytes[k]'(by omega), by
    simp [Memory.read_below, hk, List.getElem?_eq_getElem (show k < bytes.length by omega)]⟩

/-- A supplied sequence supplies every range that lies inside it. -/
theorem State.supplied.range {s : State} (h : s.supplied) (start : Nat) {stop : Nat} (hs : stop ≤ 8 * s.len) :
    s.suppliesRange start stop := by
  refine ⟨h.1, fun i _ hi => h.2 _ ?_⟩
  unfold byteIndex
  rw [Config.byteBits]
  omega

theorem inBounds_iff {b len : Nat} : inBounds b len = true ↔ b < 8 * len := by
  unfold inBounds byteIndex
  rw [decide_eq_true_iff, Config.byteBits]
  omega

theorem rangeEndOk_iff {stop len : Nat} : rangeEndOk stop len = true ↔ stop ≤ 8 * len + 7 := by
  unfold rangeEndOk
  rw [decide_eq_true_iff, Config.byteBits]
  omega

/-- The value of a bit of a byte, as R22's formula gives it. -/
theorem boolData_selectBit_toNat (b : Byte) (off : Nat) :
    (boolData (selectBit b off)).toNat = b.toNat / 2 ^ (7 - off) % 2 := by
  have h : selectBit b off = decide (b.toNat / 2 ^ (7 - off) % 2 = 1) := by
    simp [selectBit, BitVec.getLsbD, Nat.testBit_eq_decide_div_mod_eq]
  rw [h]
  rcases Nat.mod_two_eq_zero_or_one (b.toNat / 2 ^ (7 - off)) with h0 | h1
  · simp [boolData, h0]
  · simp [boolData, h1]

theorem boolData_lt (t : Bool) : (boolData t).toNat < 2 := by cases t <;> simp [boolData]

@[simp] theorem shiftIn_some (a : Data) (t : Bool) :
    shiftIn (some a) (some t) = some ((a <<< 1) ||| boolData t) := rfl

theorem shiftIn_eq_some {acc : Option Data} {bit : Option Bool} {d : Data} :
    shiftIn acc bit = some d ↔ ∃ a t, acc = some a ∧ bit = some t ∧ d = (a <<< 1) ||| boolData t := by
  cases acc <;> cases bit <;> simp [shiftIn, eq_comm]

/-- Shifting a bit into an accumulator that keeps below `2^31` is doubling and adding. -/
theorem shiftIn_toNat {a : Data} (t : Bool) (h : a.toNat < 2 ^ 31) :
    ((a <<< 1) ||| boolData t).toNat = 2 * a.toNat + (boolData t).toNat := by
  have ht := boolData_lt t
  rw [BitVec.toNat_or, BitVec.toNat_shiftLeft, Nat.shiftLeft_eq, Nat.mod_eq_of_lt (by omega)]
  have := Nat.two_pow_add_eq_or_of_lt (i := 1) (b := (boolData t).toNat) (by omega) a.toNat
  rw [show 2 * a.toNat = 2 ^ 1 * a.toNat by omega, this, Nat.mul_comm]

end Sys2Proof.Machine
end

