-- ==== Sys2Proof/Laws/PerInstr.lean ====
section
/-! SUPPORT. Facts about every instruction as syntax, one lemma per constructor. Family `EncodeOpcode`: the low four bits of an
instruction's command word are its operation code of R42, at every index width and whatever its operands. -/

namespace Sys2Proof.Laws.EncodeOpcode

/-- The `op` field of the encoding is the instruction's operation code (R40, R42). -/
def Statement (i : Instr) : Prop := ∀ iw : Nat, cmdOp iw (encodeCmd iw i) = i.opcode

theorem cmdOp_encodeCmd (iw a b : Nat) (op : BitVec 4) :
    (BitVec.ofNat (Config.cmdWidth iw) ((b <<< (iw + 4)) ||| (a <<< 4) ||| op.toNat)).extractLsb' 0 4 = op := by
  apply BitVec.eq_of_getLsbD_eq
  intro i hi
  have h1 : i < Config.cmdWidth iw := by simp only [Config.cmdWidth]; omega
  rw [BitVec.getLsbD_extractLsb', BitVec.getLsbD_ofNat]
  simp only [Nat.testBit_or, Nat.testBit_shiftLeft, ge_iff_le, Nat.zero_add]
  simp [hi, h1, show ¬ iw + 4 ≤ i by omega, show ¬ 4 ≤ i by omega, BitVec.getLsbD]

theorem getbit (index : Nat) : Statement (.getbit index) := fun iw => cmdOp_encodeCmd iw index 0 1#4

theorem getrange (start stop : Nat) : Statement (.getrange start stop) := fun iw => cmdOp_encodeCmd iw start stop 2#4

end Sys2Proof.Laws.EncodeOpcode
end

