-- ==== Sys2Proof/Laws/Range.lean ====
section
/-! SUPPORT. What the iteration of R75 can do, and what the two commands can do. -/

namespace Sys2Proof.Machine

/-- The iteration ends in a violation exactly when one of the bits it visits is out of bounds, whatever memory holds (R77, R100). -/
theorem rangeLoop_error_iff (s : State) (n i : Nat) (acc : Option Data) (c : Cause) :
    rangeLoop s n i acc = .error c ↔ c = .rangeBitOob ∧ ∃ j, i ≤ j ∧ j < i + n ∧ inBounds j s.len = false := by
  induction n generalizing i acc with
  | zero => simp [rangeLoop]; omega
  | succ n ih =>
    unfold rangeLoop
    split
    · rename_i hb
      rw [ih]
      refine and_congr_right fun _ => ⟨fun ⟨j, h1, h2, h3⟩ => ⟨j, by omega, by omega, h3⟩, fun ⟨j, h1, h2, h3⟩ => ?_⟩
      have : j ≠ i := fun e => by simp [e, hb] at h3
      exact ⟨j, by omega, by omega, h3⟩
    · rename_i hb
      constructor
      · intro h
        exact ⟨by cases h; rfl, i, le_refl i, by omega, by simpa using hb⟩
      · rintro ⟨rfl, -⟩
        rfl

/-- Over bits that are in bounds and readable, the iteration shifts them in one after the other. -/
theorem rangeLoop_value (s : State) (f : Nat → Bool) (n i : Nat) (a : Data)
    (hb : ∀ j, i ≤ j → j < i + n → inBounds j s.len = true ∧ s.bitAt j = some (f j)) :
    rangeLoop s n i (some a) =
      .ok (some ((List.range' i n).foldl (fun acc j => (acc <<< 1) ||| boolData (f j)) a)) := by
  induction n generalizing i a with
  | zero => rfl
  | succ n ih =>
    obtain ⟨h1, h2⟩ := hb i (le_refl i) (by omega)
    unfold rangeLoop
    rw [if_pos h1, h2, shiftIn_some, ih (i + 1) _ fun j hj hj' => hb j (by omega) (by omega)]
    rfl

/-- The value the iteration ends with is below `(a + 1) * 2^n`, if it fits (R81). -/
theorem rangeLoop_lt (s : State) (n i : Nat) (acc : Option Data) (k : Nat) (d : Data) (hk : k + n ≤ 31)
    (ha : ∀ a, acc = some a → a.toNat < 2 ^ k) (h : rangeLoop s n i acc = .ok (some d)) : d.toNat < 2 ^ (k + n) := by
  induction n generalizing i acc k with
  | zero =>
    have : acc = some d := by simpa [rangeLoop] using h
    exact ha d this
  | succ n ih =>
    unfold rangeLoop at h
    split at h
    · have := ih (k := k + 1) (i + 1) (shiftIn acc (s.bitAt i)) (by omega) ?_ h
      · rwa [show k + (n + 1) = k + 1 + n by omega]
      · intro a' h'
        obtain ⟨a, t, rfl, -, rfl⟩ := shiftIn_eq_some.1 h'
        have h1 := ha a rfl
        have h2 : 2 ^ k ≤ 2 ^ 31 := Nat.pow_le_pow_right (by omega) (by omega)
        rw [shiftIn_toNat t (by omega), Nat.pow_succ]
        have := boolData_lt t
        omega
    · cases h

/-- The three tests of R75 in their order, then the iteration. -/
theorem execGetrange_cases (start stop : Nat) (s : State) :
    (8 * s.len + 7 < stop ∧ execGetrange start stop s = .next (s.answer (.fault .rangeEndOob))) ∨
    (stop ≤ 8 * s.len + 7 ∧ stop < start ∧ execGetrange start stop s = .next (s.answer (.fault .rangeReversed))) ∨
    (stop ≤ 8 * s.len + 7 ∧ start + 32 ≤ stop ∧ execGetrange start stop s = .next (s.answer (.fault .rangeTooWide))) ∨
    (stop ≤ 8 * s.len + 7 ∧ start < stop ∧ stop < start + 32 ∧ 8 * s.len < stop ∧
      execGetrange start stop s = .next (s.answer (.fault .rangeBitOob))) ∨
    (stop ≤ 8 * s.len + 7 ∧ start ≤ stop ∧ stop < start + 32 ∧ (start < stop → stop ≤ 8 * s.len) ∧
      ∃ data, rangeLoop s (stop - start) start (some 0#32) = .ok data ∧
        execGetrange start stop s = s.deliver data) := by
  unfold execGetrange
  by_cases h1 : rangeEndOk stop s.len = true
  · have h1' := rangeEndOk_iff.1 h1
    by_cases h2 : start > stop
    · simp [h1, h2, h1']
    · by_cases h3 : stop - start < 32
      · simp only [h1, h2, h3, not_true, if_false, Config.rangeBound]
        cases hl : rangeLoop s (stop - start) start (some 0#32) with
        | error c =>
          obtain ⟨rfl, j, hj1, hj2, hj3⟩ := (rangeLoop_error_iff ..).1 hl
          have hj4 : ¬ j < 8 * s.len := fun h => by simp [inBounds_iff.2 h] at hj3
          right; right; right; left
          exact ⟨h1', by omega, by omega, by omega, rfl⟩
        | ok data =>
          right; right; right; right
          refine ⟨h1', by omega, by omega, fun hlt => ?_, data, rfl, rfl⟩
          by_contra hgt
          have hb : inBounds (stop - 1) s.len = false := by
            cases hb : inBounds (stop - 1) s.len with
            | false => rfl
            | true => have := inBounds_iff.1 hb; omega
          have := (rangeLoop_error_iff s (stop - start) start (some 0#32) .rangeBitOob).2
            ⟨rfl, stop - 1, by omega, by omega, hb⟩
          rw [hl] at this
          cases this
      · right; right; left
        simp [h1, h2, h3, h1']; omega
  · left
    have : ¬ stop ≤ 8 * s.len + 7 := fun h => h1 (rangeEndOk_iff.2 h)
    exact ⟨by omega, by simp [h1]⟩

/-- `getbit` either faults on its bounds test or delivers its bit. -/
theorem execGetbit_cases (index : Nat) (s : State) :
    (8 * s.len ≤ index ∧ execGetbit index s = .next (s.answer (.fault .indexOob))) ∨
    (index < 8 * s.len ∧ execGetbit index s = s.deliver ((s.bitAt index).map boolData)) := by
  unfold execGetbit
  by_cases h : inBounds index s.len = true
  · exact .inr ⟨inBounds_iff.1 h, by simp [h]⟩
  · exact .inl ⟨Nat.le_of_not_lt fun hl => h (inBounds_iff.2 hl), by simp [h]⟩

/-- The value `deliver` presents keeps what is known of it. -/
theorem deliver_next {data : Option Data} {s t : State} (h : s.deliver data = .next t) :
    ∃ d, data = some d ∧ t = s.answer (.ok d) := by
  rcases s.deliver_cases data with ⟨d, hd, e⟩ | ⟨-, -, e⟩ | ⟨-, -, e⟩ <;> rw [e] at h <;> cases h
  exact ⟨d, hd, rfl⟩

/-- Everything a command can do when it completes: present one response, whose data stays below `2^31`. -/
theorem exec_next {i : Instr} {s t : State} (h : exec i s = .next t) : ∃ r, t = s.answer r ∧ Rsp.narrow r := by
  cases i with
  | getbit index =>
    change execGetbit index s = _ at h
    rcases execGetbit_cases index s with ⟨-, e⟩ | ⟨-, e⟩ <;> rw [e] at h
    · cases h; exact ⟨_, rfl, trivial⟩
    · obtain ⟨d, hd, rfl⟩ := deliver_next h
      refine ⟨_, rfl, ?_⟩
      obtain ⟨b, -, rfl⟩ := Option.map_eq_some_iff.1 hd
      have := boolData_lt b
      change _ < 2 ^ 31
      omega
  | getrange start stop =>
    change execGetrange start stop s = _ at h
    rcases execGetrange_cases start stop s with
      ⟨-, e⟩ | ⟨-, -, e⟩ | ⟨-, -, e⟩ | ⟨-, -, -, -, e⟩ | ⟨-, h1, h2, -, data, hl, e⟩ <;> rw [e] at h
    · cases h; exact ⟨_, rfl, trivial⟩
    · cases h; exact ⟨_, rfl, trivial⟩
    · cases h; exact ⟨_, rfl, trivial⟩
    · cases h; exact ⟨_, rfl, trivial⟩
    · obtain ⟨d, rfl, rfl⟩ := deliver_next h
      refine ⟨_, rfl, ?_⟩
      have := rangeLoop_lt s _ _ _ 0 d (by omega) (by simp) hl
      have h3 : 2 ^ (0 + (stop - start)) ≤ 2 ^ 31 := Nat.pow_le_pow_right (by omega) (by omega)
      change _ < 2 ^ 31
      omega

/-- The same of a command word, legal or not. -/
theorem runCommand_next {cmd : BitVec Config.commandBits} {s t : State} (h : runCommand cmd s = .next t) :
    ∃ r, t = s.answer r ∧ Rsp.narrow r := by
  unfold runCommand at h
  split at h
  · exact exec_next h
  · cases h; exact ⟨_, rfl, trivial⟩

end Sys2Proof.Machine
end

