-- ==== Sys2Proof/Laws/Step.lean ====
section
/-! SUPPORT. Once and for all, what a step can do when it answers a next state. -/

namespace Sys2Proof.Machine

theorem sameSequence_iff {s t : State} :
    s.sameSequence t = true ↔ s.bufLen = t.bufLen ∧ s.mem.below s.len = t.mem.below t.len := by
  simp [State.sameSequence]

/-- A change of the sequence goes through between commands, or when it changes nothing below `L`; otherwise it is refused. -/
theorem changeSequence_cases (s t : State) :
    ((s.inFlight = none ∨ s.sameSequence t = true) ∧ changeSequence s t = .next t) ∨
    (s.inFlight ≠ none ∧ ¬ s.sameSequence t = true ∧ changeSequence s t = .refused .sequenceChanged) := by
  unfold changeSequence
  by_cases h : s.inFlight = none
  · exact .inl ⟨.inl h, by simp [h]⟩
  · by_cases h' : s.sameSequence t = true
    · exact .inl ⟨.inr h', by simp [h']⟩
    · exact .inr ⟨h, h', by simp [h, h']⟩

theorem changeSequence_next {s t u : State} (h : changeSequence s t = .next u) :
    u = t ∧ (s.inFlight = none ∨ s.sameSequence t = true) := by
  unfold changeSequence at h
  split at h
  · rename_i hc
    cases h
    simpa using hc
  · cases h

/-- The block's move: it answers the command in flight, or nothing happens. -/
theorem blockTurn_next {s t : State} (h : blockTurn s = .next t) :
    (s.inFlight = none ∧ t = s) ∨
    ∃ cmd r, s.inFlight = some cmd ∧ runCommand cmd s = .next t ∧ t = s.answer r ∧ Rsp.narrow r := by
  unfold blockTurn at h
  split at h
  · rename_i cmd hf
    obtain ⟨r, hr, hn⟩ := runCommand_next h
    exact .inr ⟨cmd, r, hf, h, hr, hn⟩
  · rename_i hf
    cases h
    exact .inl ⟨hf, rfl⟩

/-- What one step can do. -/
theorem step_next {s t : State} (h : step s = .next t) :
    (s.inFlight = none ∧ t = s) ∨
    (∃ cmd r, s.inFlight = some cmd ∧ runCommand cmd s = .next t ∧ t = s.answer r ∧ Rsp.narrow r) ∨
    (∃ rest, s.inputs = .await :: rest ∧ s.inFlight = none ∧ t = { s with inputs := rest }) ∨
    (∃ cmd rest, s.inputs = .command cmd :: rest ∧ s.inFlight = none ∧ t = { s with inputs := rest }.accept cmd) ∨
    (∃ len bytes rest, s.inputs = .present len bytes :: rest ∧ t = { s with inputs := rest }.install len bytes) ∨
    (∃ index byte rest, s.inputs = .write index byte :: rest ∧ t = { s with inputs := rest }.poke index byte) ∨
    (∃ rest, s.inputs = .rst :: rest ∧ t = { s with inputs := rest }.assertRst) ∨
    (∃ live rest, s.inputs = .answering live :: rest ∧ t = { s with inputs := rest, memAnswers := live }) := by
  unfold step turn at h
  split at h
  · rcases blockTurn_next h with h' | h'
    · exact .inl h'
    · exact .inr (.inl h')
  · rename_i move rest hi
    cases move with
    | command cmd =>
      simp only [inputTurn] at h
      split at h
      · rename_i hf
        cases h
        exact .inr (.inr (.inr (.inl ⟨cmd, rest, hi, hf, rfl⟩)))
      · rename_i word hf
        obtain ⟨r, hr, hn⟩ := runCommand_next h
        exact .inr (.inl ⟨word, r, hf, h, hr, hn⟩)
    | await =>
      simp only [inputTurn] at h
      split at h
      · rename_i hf
        cases h
        exact .inr (.inr (.inl ⟨rest, hi, hf, rfl⟩))
      · rename_i word hf
        obtain ⟨r, hr, hn⟩ := runCommand_next h
        exact .inr (.inl ⟨word, r, hf, h, hr, hn⟩)
    | present len bytes =>
      obtain ⟨rfl, -⟩ := changeSequence_next h
      exact .inr (.inr (.inr (.inr (.inl ⟨len, bytes, rest, hi, rfl⟩))))
    | write index byte =>
      obtain ⟨rfl, -⟩ := changeSequence_next h
      exact .inr (.inr (.inr (.inr (.inr (.inl ⟨index, byte, rest, hi, rfl⟩)))))
    | rst =>
      cases h
      exact .inr (.inr (.inr (.inr (.inr (.inr (.inl ⟨rest, hi, rfl⟩))))))
    | answering live =>
      cases h
      exact .inr (.inr (.inr (.inr (.inr (.inr (.inr ⟨live, rest, hi, rfl⟩))))))

/-- While nothing disturbs the command in flight, a step is the block's answer to it. -/
theorem step_of_quiet {s : State} {cmd : BitVec Config.commandBits} (hf : s.inFlight = some cmd) (hq : s.quiet = true) :
    step s = runCommand cmd s := by
  have hb : blockTurn s = runCommand cmd s := by simp [blockTurn, hf]
  cases hi : s.inputs with
  | nil => simp [step, turn, hi, hb]
  | cons move rest =>
    cases move <;> simp [State.quiet, hi] at hq <;> simp [step, turn, hi, inputTurn, hf]

/-- A command placed by `offer` is in flight and undisturbed. -/
theorem offer_inFlight (cmd : BitVec Config.commandBits) (s : State) : (s.offer cmd).inFlight = some cmd := by
  unfold State.offer; cases s.inFlight <;> rfl

theorem quiet_eq_of_inputs {s t : State} (h : s.inputs = t.inputs) : s.quiet = t.quiet := by
  unfold State.quiet; rw [h]

theorem offer_inputs (cmd : BitVec Config.commandBits) (s : State) :
    (s.offer cmd).inputs = if s.quiet then s.inputs else .await :: s.inputs := rfl

theorem offer_quiet (cmd : BitVec Config.commandBits) (s : State) : (s.offer cmd).quiet = true := by
  by_cases hq : s.quiet = true
  · rw [← hq]
    exact quiet_eq_of_inputs (by rw [offer_inputs, if_pos hq])
  · unfold State.quiet
    rw [offer_inputs, if_neg hq]

end Sys2Proof.Machine
end

