-- ==== Sys2Proof/Tests/Slice0.lean ====
section
/-! SUPPORT. Tests. Expected results are the spec's own: the words of 30_encoding.md section 9 and the vectors of
95_test_vectors.md. Then, for each statement that has hypotheses, a witness that they can be met together, one per clause. -/

namespace Sys2Proof.Tests

open Sys2Proof.Machine

/-- The machine with a byte sequence put in place after reset. -/
def seqState (bytes : List Byte) : State := State.reset.install (BitVec.ofNat 32 bytes.length) bytes

/-- The same with a command word accepted. -/
def flightState (bytes : List Byte) (cmd : BitVec 68) : State := (seqState bytes).accept cmd

/-- The response a step or a command presents. -/
def response (o : Host.Outcome State Fault Refusal) : Option Rsp :=
  match o with
  | .next t => t.rsp
  | _ => none

theorem seqState_supplied (bytes : List Byte) : (seqState bytes).supplied :=
  State.install_supplied (by simpa using Nat.mod_le _ _) rfl

/-! ### WellFormed -/

theorem test_wellFormed_getbit_index_too_wide : (Instr.getbit (2 ^ 32)).wellFormed 32 = false := by decide
theorem test_wellFormed_getrange_start_too_wide : (Instr.getrange (2 ^ 32) 0).wellFormed 32 = false := by decide
theorem test_wellFormed_getrange_stop_too_wide : (Instr.getrange 0 (2 ^ 32)).wellFormed 32 = false := by decide
theorem test_wellFormed_largest : (Instr.getrange (2 ^ 32 - 1) (2 ^ 32 - 1)).wellFormed 32 = true := by decide
theorem test_wellFormed_getbit_largest : (Instr.getbit (2 ^ 32 - 1)).wellFormed 32 = true := by decide

/-! ### Decode and encode -/

/-- `getbit 23`: 32 bits of `b` = 0, 32 bits of `a` = 23, 4 bits of `op` = 1. -/
theorem test_decode_getbit_bits :
    decode 0b00000000000000000000000000000000_00000000000000000000000000010111_0001#68 = .ok (.getbit 23) := by decide

/-- `getrange 5, 12`: 32 bits of `b` = 12, 32 bits of `a` = 5, 4 bits of `op` = 2. -/
theorem test_decode_getrange_bits :
    decode 0b00000000000000000000000000001100_00000000000000000000000000000101_0010#68 = .ok (.getrange 5 12) := by decide

theorem test_decode_reserved_field : decode 0x00000001000000021#68 = .error (.reservedField 1) := by decide
theorem test_decode_zero_word : decode 0#68 = .error (.reservedOp 0#4) := by decide
theorem test_decode_all_ones : decode 0xFFFFFFFFFFFFFFFFF#68 = .error (.reservedOp 15#4) := by decide
theorem test_encode_getbit : encode (.getbit 2) = 0x00000000000000021#68 := by decide
theorem test_encode_getrange : encode (.getrange 1 14) = 0x0000000E000000012#68 := by decide
theorem test_tableWord_getrange : decodeTableWord 72 0x0000000C000000052 = some (.getrange 5 12) := by decide

/-! ### The commands (vectors S1, S2a, F2, G11) -/

theorem test_getbit_S2a : response (exec (.getbit 2) (seqState [0x27, 0x66])) = some (.ok 1#32) := by decide
theorem test_getbit_F2 : response (exec (.getbit 23) (seqState [0x27, 0x66])) = some (.fault .indexOob) := by decide
theorem test_getrange_S1 : response (exec (.getrange 5 12) (seqState [0x27, 0x66])) = some (.ok 118#32) := by decide
theorem test_getrange_G11 :
    response (exec (.getrange 7 38) (seqState [0x01, 0xFF, 0xFF, 0xFF, 0xFC])) = some (.ok 0x7FFFFFFF#32) := by decide

/-! ### Steps, response words, assembler -/

/-- F22: the all-zeros word placed after reset is answered `Fault(ILLEGAL_CMD)` by the next step. -/
theorem test_step_illegal : response (step (State.reset.withFetchWord 72 0)) = some (.fault .illegalCmd) := by decide
/-- A disturbing move of the environment does not come before the placed word: the next step answers it. -/
theorem test_withFetchWord_quiet :
    response (step ({ seqState [0xFF] with inputs := [.rst] }.withFetchWord 72 0x00000008000000002)) =
      some (.ok 255#32) := by decide
/-- Section 2.1: `Ok(118)` is the word `0x000000076`. -/
theorem test_response_word : (Rsp.ok 118#32).toWire 0 = 0x000000076#36 := by decide
/-- Section 2.1: `Fault(RANGE_TOO_WIDE)` is `0xD` above the free data wires. -/
theorem test_fault_word : (Rsp.fault .rangeTooWide).toWire 0x12345678 = 0xD12345678#36 := by decide
theorem test_parse_mnemonic : parseLine "getrange 5, 0xC ; S1".toList = some (.command (.getrange 5 12)) := by decide
theorem test_parse_call : parseLine "get_bit_range(5..12)".toList = some (.command (.getrange 5 12)) := by decide
theorem test_parse_bytes : parseLine ".bytes [0b00100111, 0x66]".toList = some (.bytes [0x27, 0x66]) := by decide
theorem test_parse_too_wide : parseLine "getbit 4294967296".toList = none := by decide

/-! ### Witnesses: the hypotheses of the statements can be met -/

theorem witness_ByteIndexIsQuotientAndSlice : 3 ≤ 3 ∧ byteIndex (7#3 : BitVec 3).toNat = 0 := by decide
theorem witness_BitOffsetIsRemainderFromMsb : 3 ≤ 3 ∧ bitOff (7#3 : BitVec 3).toNat = 7 := by decide
theorem witness_InBoundsMeansInsideTheStream : 3 ≤ 3 ∧ inBounds (7#3 : BitVec 3).toNat (1#3 : BitVec 3).toNat = true ∧
    1 ≤ 1 ∧ inBounds (8 * 1 - 1) 1 = true := by decide
theorem witness_SelectedBitIsMsbFirst : 7 ≤ 7 ∧ selectBit 0x01#8 7 = true ∧ selectBit 0x80#8 0 = true := by decide
theorem witness_RangeTouchesAtMostFiveBytes : 7 < 38 ∧ 38 - 7 ≤ 31 ∧ bytesTouched 7 38 = 5 := by decide

/-- Getbit in bounds, at the last bit of the sequence; also the witness of the shifter's one-bit case. -/
theorem witness_GetbitReturnsTheStreamBit :
    23 / 8 < (seqState [0x4C, 0x1F, 0x01]).len ∧ (seqState [0x4C, 0x1F, 0x01]).memAnswers = true ∧
    (seqState [0x4C, 0x1F, 0x01]).mem.read (23 / 8) = some 0x01#8 := by decide
theorem witness_GetbitOutOfBoundsFaults : 8 * (seqState [0x27, 0x66]).len ≤ 16 := by decide
theorem witness_GetbitsOfAByteRebuildIt :
    1 < (seqState [0x27, 0x66]).len ∧ (seqState [0x27, 0x66]).memAnswers = true ∧
    (seqState [0x27, 0x66]).mem.read 1 = some 0x66#8 := by decide

/-- A range of 31 bits that ends at `8*L`; the hypotheses of the sum, of the shifter forms and of R83's second clause. -/
theorem witness_GetrangeReturnsTheSumOfItsBits :
    17 < 48 ∧ 48 - 17 ≤ 31 ∧ 48 ≤ 8 * (seqState [0xDE, 0xAD, 0xBE, 0xEF, 0x12, 0x34]).len ∧
    (seqState [0xDE, 0xAD, 0xBE, 0xEF, 0x12, 0x34]).suppliesRange 17 48 :=
  ⟨by decide, by decide, by decide, (seqState_supplied _).range 17 (by decide)⟩
theorem witness_ShifterComputesTheRange :
    7 < 38 ∧ 38 - 7 ≤ 31 ∧ 38 ≤ 8 * (seqState [0x01, 0xFF, 0xFF, 0xFF, 0xFC]).len ∧
    (seqState [0x01, 0xFF, 0xFF, 0xFF, 0xFC]).suppliesRange 7 38 :=
  ⟨by decide, by decide, by decide, (seqState_supplied _).range 7 (by decide)⟩
theorem witness_ByteSerialFormComputesTheRange :
    39 < 40 ∧ 40 - 39 ≤ 31 ∧ 40 ≤ 8 * (seqState [0x80, 0, 0, 0, 0x01]).len ∧
    (seqState [0x80, 0, 0, 0, 0x01]).suppliesRange 39 40 :=
  ⟨by decide, by decide, by decide, (seqState_supplied _).range 39 (by decide)⟩
theorem witness_GetbitIsTheShiftersOneBitCase :
    0 / 8 < (seqState [0x80]).len ∧ (seqState [0x80]).memAnswers = true ∧ (seqState [0x80]).mem.read (0 / 8) = some 0x80#8 := by
  decide

/-- Both sides of the empty range's bound: `8*L + 7` passes, `8*L + 8` does not. -/
theorem witness_EmptyRangeReturnsZero :
    23 / 8 ≤ (seqState [0x27, 0x66]).len ∧ (seqState [0x27, 0x66]).len < 24 / 8 := by decide
theorem witness_GetrangeValidExactly :
    (seqState [0xFF]).supplied ∧ rangeValid 0 8 (seqState [0xFF]).len ∧ ¬ rangeValid 0 9 (seqState [0xFF]).len := by
  have h : (seqState [0xFF]).len = 1 := rfl
  rw [h]
  exact ⟨seqState_supplied _, by simp [rangeValid], by simp [rangeValid]⟩
theorem witness_RangeDecomposes :
    (seqState [0xFF]).supplied ∧ 1 ≤ 4 ∧ 4 ≤ 8 ∧ rangeValid 1 8 (seqState [0xFF]).len := by
  have h : (seqState [0xFF]).len = 1 := rfl
  rw [h]
  exact ⟨seqState_supplied _, by decide, by decide, by simp [rangeValid]⟩
theorem witness_RangeResultFitsItsLength :
    exec (.getrange 0 8) (seqState [0xFF]) = .next (afterResponse (seqState [0xFF]) (.ok 255#32)) := rfl
theorem witness_OneBitRangeIsGetbit : 7 < 8 * (seqState [0xFF]).len := by decide
theorem witness_AlignedFieldIsBigEndian :
    1 ≤ 3 ∧ 3 ≤ 3 ∧ 0 + 3 ≤ (seqState [0xDE, 0xAD, 0xBE]).len ∧
    (seqState [0xDE, 0xAD, 0xBE]).readBytes 0 3 = some 0xDEADBE := by decide
/-- Two sequences of different length that agree on the byte touched. -/
theorem witness_RangeDependsOnlyOnTouchedBytes :
    0 < 8 ∧ 8 ≤ 8 * (seqState [0xFF]).len ∧ 8 ≤ 8 * (seqState [0xFF, 0x00]).len ∧
    (∀ k, 0 / 8 ≤ k → k ≤ (8 - 1) / 8 → (seqState [0xFF]).readByte k = (seqState [0xFF, 0x00]).readByte k) ∧
    exec (.getrange 0 8) (seqState [0xFF]) = .next (afterResponse (seqState [0xFF]) (.ok 255#32)) := by
  refine ⟨by decide, by decide, by decide, fun k _ hk => ?_, rfl⟩
  obtain rfl : k = 0 := by omega
  rfl
/-- Section 2.6: a sequence with one byte put in front. -/
theorem witness_RangeIsShiftInvariant :
    (seqState [0xDE, 0xAD]).len = (seqState [0xAD]).len + 1 ∧
    (seqState [0xDE, 0xAD]).memAnswers = (seqState [0xAD]).memAnswers ∧
    (∀ k, (seqState [0xDE, 0xAD]).mem.read (k + 1) = (seqState [0xAD]).mem.read k) ∧
    exec (.getrange 0 8) (seqState [0xAD]) = .next (afterResponse (seqState [0xAD]) (.ok 0xAD#32)) :=
  ⟨rfl, rfl, fun k => by cases k <;> rfl, rfl⟩
theorem witness_ReversedRangeFaults : 5 < 12 ∧ ¬ (seqState [0x27, 0x66]).len < 5 / 8 ∧ (seqState []).len < 8 / 8 ∧ 8 < 9 := by
  decide
/-- 32 bits in bounds, 32 bits with the end out of bounds, and 31 bits. -/
theorem witness_RangeOf32BitsFaults :
    (0 + 32 ≤ 32 ∧ ¬ (seqState [0xDE, 0xAD, 0xBE, 0xEF]).len < 32 / 8) ∧
    (0 + 32 ≤ 40 ∧ (seqState [0xDE, 0xAD, 0xBE, 0xEF]).len < 40 / 8) ∧
    31 = 0 + 31 ∧ 31 ≤ 8 * (seqState [0xDE, 0xAD, 0xBE, 0xEF]).len ∧
    (seqState [0xDE, 0xAD, 0xBE, 0xEF]).suppliesRange 0 31 :=
  ⟨by decide, by decide, by decide, by decide, (seqState_supplied _).range 0 (by decide)⟩

theorem witness_WindowFormsAgree :
    1 ≤ 5 ∧ 5 ≤ 5 ∧ 0x01FFFFFFFC < 2 ^ (8 * 5) ∧ 7 ≤ 7 ∧ 1 ≤ 31 ∧ 31 ≤ 31 ∧ 7 + 31 ≤ 8 * 5 := by decide
theorem witness_DatapathNeeds38Bits : 7 + 31 ≤ 38 := by decide
theorem witness_CommandsNeverWriteMemory :
    runCommand 0x00000008000000002#68 (seqState [0xFF]) = .next (afterResponse (seqState [0xFF]) (.ok 255#32)) := rfl
theorem witness_ReadSetIsBelowLength :
    exec (.getrange 0 8) (seqState [0xFF]) = .next (afterResponse (seqState [0xFF]) (.ok 255#32)) ∧
    0 < 8 ∧ readSet (.getrange 0 8) = [0] := ⟨rfl, by decide, by decide⟩
/-- The second state differs in its storage beyond `L` and in its history. -/
theorem witness_ResponseDependsOnlyOnTheSequence :
    let t := { seqState [0xFF] with mem := (seqState [0xFF]).mem.write 9 0x12 }.answer (.fault .indexOob)
    (seqState [0xFF]).bufLen = t.bufLen ∧ (seqState [0xFF]).memAnswers = t.memAnswers ∧
    (∀ k, k < (seqState [0xFF]).len → (seqState [0xFF]).mem.read k = t.mem.read k) ∧
    runCommand 0x00000008000000002#68 (seqState [0xFF]) = .next (afterResponse (seqState [0xFF]) (.ok 255#32)) := by
  refine ⟨rfl, rfl, fun k hk => ?_, rfl⟩
  have h : (seqState [0xFF]).len = 1 := rfl
  rw [h] at hk
  obtain rfl : k = 0 := by omega
  rfl
/-- R26: at and beyond `L`, also where the storage of an arbitrary state holds a byte, and across `L`. -/
theorem witness_ReadsBeyondLengthHaveNoValue :
    let s := { seqState [0xFF] with mem := (seqState [0xFF]).mem.write 1 0x12 }
    (s.len ≤ 1 ∧ s.mem.read 1 = some 0x12#8 ∧ s.readByte 1 = none) ∧
    (0 < s.len ∧ s.memAnswers = true ∧ s.readByte 0 = some 0xFF#8) ∧
    (1 ≤ 2 ∧ s.len < 0 + 2) ∧ 8 * s.len ≤ 8 ∧ (0 < 9 ∧ 8 * s.len < 9) := by decide
theorem witness_EarlierCommandsDoNotMatter :
    runCommand 0x00000000000000081#68 (seqState [0xFF]) = .next (afterResponse (seqState [0xFF]) (.fault .indexOob)) := rfl
theorem witness_CanonicalStorageIsDeterminedByItsBytes :
    (Memory.ofBytes [0xFF]).wf = true ∧ (Memory.write [] 0 0xFF).wf = true ∧
    ∀ k, (Memory.ofBytes [0xFF]).read k = (Memory.write [] 0 0xFF).read k :=
  ⟨by decide, by decide, fun _ => rfl⟩

theorem witness_DecodeInvertsEncode :
    (Instr.getrange (2 ^ 32 - 1) (2 ^ 32 - 1)).wellFormed 32 = true ∧ (Instr.getbit 255).wellFormed 8 = true := by decide
theorem witness_EncodeInvertsDecode : decodeCmd 32 0x0000000C000000052#68 = .ok (.getrange 5 12) := by decide
/-- One word for each of the decoder's four clauses. -/
theorem witness_DecoderPartitionsAllWords :
    (cmdOp 32 0x171#68 = 1#4 ∧ cmdB 32 0x171#68 = 0) ∧
    (cmdOp 32 0x00000001000000021#68 = 1#4 ∧ cmdB 32 0x00000001000000021#68 ≠ 0) ∧
    cmdOp 32 0x0000000C000000052#68 = 2#4 ∧ (cmdOp 32 0x3#68 ≠ 1#4 ∧ cmdOp 32 0x3#68 ≠ 2#4) := by decide
theorem witness_ResponseWordSpellsItsResponse :
    ((seqState [0xFF]).answer (.fault .rangeTooWide)).rsp = some (.fault .rangeTooWide) := rfl
theorem witness_ReservedCauseCodesNeverAppear : Cause.code .rangeBitOob = Cause.code .rangeBitOob := rfl
theorem witness_PrintedInstructionReadsBack : (Instr.getrange 0 (2 ^ 32 - 1)).wellFormed Config.indexWidth = true := by decide

/-- One input for each cause, at the boundary of its condition (F1, F7, F9, F10, F11, F22). -/
theorem witness_FaultsInPriorityOrder :
    decode 0#68 = .error (.reservedOp 0#4) ∧
    (seqState [0x27, 0x66]).len ≤ 16 / 8 ∧
    (seqState [0x27, 0x66]).len < 24 / 8 ∧
    (5 / 8 ≤ (seqState [0x27, 0x66]).len ∧ 5 < 12) ∧
    (32 / 8 ≤ (seqState [0xDE, 0xAD, 0xBE, 0xEF]).len ∧ 0 ≤ 32 ∧ 32 ≤ 32 - 0) ∧
    (17 / 8 ≤ (seqState [0x27, 0x66]).len ∧ 0 < 17 ∧ 17 - 0 ≤ 31 ∧ 8 * (seqState [0x27, 0x66]).len < 17) := by decide
theorem witness_ViolationDependsOnlyOnOperandsAndLength :
    (seqState [0x27, 0x66]).len = (seqState [0x00, 0xFF]).len ∧
    exec (.getrange 0 17) (seqState [0x27, 0x66]) = .next (afterResponse (seqState [0x27, 0x66]) (.fault .rangeBitOob)) :=
  ⟨rfl, rfl⟩
/-- A faulted run that goes on with a successful command. -/
theorem witness_FaultMarkIsNeverCleared :
    let s := { seqState [0xFF] with history := [.fault .indexOob] }.accept 0x00000008000000002#68
    step s = .next (afterResponse s (.ok 255#32)) ∧ s.faulted = true ∧ (afterResponse s (.ok 255#32)).runOver = true :=
  ⟨rfl, by decide, by decide⟩

/-- Both stops of both commands, at the last bit of the sequence. -/
theorem witness_UnreadableByteStopsTheCommand :
    let silent := { seqState [0xFF] with memAnswers := false }
    let short := State.reset.install 1#32 []
    (7 / 8 < silent.len ∧ silent.memAnswers = false) ∧
    (7 / 8 < short.len ∧ short.memAnswers = true ∧ short.mem.read (7 / 8) = none) ∧
    (1 ≤ 7 ∧ 7 < 8 ∧ 8 - 1 ≤ 31 ∧ 8 ≤ 8 * silent.len ∧ 8 ≤ 8 * short.len) := by decide
/-- A shorter sequence, another byte, and a written byte, each while a command is in flight. -/
theorem witness_ChangingTheSequenceInFlightIsRefused :
    let s := flightState [0xFF] 0x171#68
    s.inFlight = some 0x171#68 ∧ 0#32 ≠ s.bufLen ∧
    (0 < s.len ∧ s.mem.read 0 ≠ ([0x00] : List Byte)[0]?) ∧ (0 < s.len ∧ s.mem.read 0 ≠ some 0x00#8) ∧
    step { s with inputs := [.present 1#32 [0x00]] } = .refused .sequenceChanged ∧
    step { s with inputs := [.write 0 0x00] } = .refused .sequenceChanged := by
  refine ⟨rfl, by decide, by decide, by decide, rfl, rfl⟩

theorem witness_StepRunsTheDecodedInstruction :
    let s := flightState [0xFF] 0x00000008000000002#68
    s.inFlight = some 0x00000008000000002#68 ∧ s.quiet = true ∧ decode 0x00000008000000002#68 = .ok (.getrange 0 8) := by
  refine ⟨rfl, rfl, by decide⟩
theorem witness_NextStepRunsThePlacedWord : decodeTableWord 72 0x171 = some (.getbit 23) := by decide
/-- Both kinds of illegal word. -/
theorem witness_IllegalCommandIsAnsweredWithAFault :
    ((flightState [0xFF] 0x3#68).quiet = true ∧ cmdOp 32 0x3#68 ≠ 1#4 ∧ cmdOp 32 0x3#68 ≠ 2#4) ∧
    (flightState [0xFF] 0x00000001000000021#68).quiet = true ∧
    cmdOp 32 0x00000001000000021#68 = 1#4 ∧ cmdB 32 0x00000001000000021#68 ≠ 0 := by decide
theorem witness_OneCommandAtATime :
    { seqState [0xFF] with inputs := [.command 0x171#68] }.inFlight = none ∧
    { flightState [0xFF] 0x3#68 with inputs := [.command 0x171#68] }.inFlight = some 0x3#68 := ⟨rfl, rfl⟩
theorem witness_AcceptedCommandIsAnswered :
    (flightState [0xFF] 0x171#68).inFlight = some 0x171#68 ∧ (flightState [0xFF] 0x171#68).quiet = true ∧
    (flightState [0xFF] 0x171#68).supplied := ⟨rfl, rfl, seqState_supplied [0xFF]⟩
theorem witness_OwnerMayChangeTheSequenceBetweenCommands :
    let s := { seqState [0xFF] with inputs := [.present 2#32 [0x27, 0x66]] }
    let t := { seqState [0xFF] with inputs := [.write 0 0x00] }
    let u := { seqState [0xFF] with inputs := [.write 1 0x00] }
    (s.inFlight = none ∧ s.inputs = [.present 2#32 [0x27, 0x66]]) ∧
    (t.inFlight = none ∧ t.inputs = [.write 0 0x00] ∧ 0 < t.len) ∧
    u.inFlight = none ∧ u.inputs = [.write 1 0x00] ∧ u.len ≤ 1 := by decide
theorem witness_MovesThatTouchNoByte :
    { seqState [0xFF] with inputs := [.answering false] }.inputs = [.answering false] ∧
    ({ seqState [0xFF] with inputs := [.await] }.inFlight = none ∧ (seqState [0xFF]).inputs = []) ∧
    (flightState [0xFF] 0x171#68).inFlight = some 0x171#68 ∧ (flightState [0xFF] 0x171#68).inputs = [] := by decide
/-- A replacement by the same sequence, a write of the byte already there, and a write at `L`, each while a command is in flight. -/
theorem witness_UnchangedSequenceInFlightGoesThrough :
    (flightState [0xFF] 0x171#68).Inv ∧ (flightState [0xFF] 0x171#68).inFlight = some 0x171#68 ∧
    (flightState [0xFF] 0x171#68).bufLen = 1#32 ∧
    (∀ k, k < (flightState [0xFF] 0x171#68).len →
      (flightState [0xFF] 0x171#68).mem.read k = ([0xFF] : List Byte)[k]?) ∧
    (flightState [0xFF] 0x171#68).mem.read 0 = some 0xFF#8 ∧ (flightState [0xFF] 0x171#68).len ≤ 1 := by
  refine ⟨⟨rfl, rfl, rfl, fun _ => rfl, fun r h => ?_, fun r h => ?_⟩, rfl, rfl, fun k hk => ?_, rfl, by decide⟩
  · cases h
  · cases h
  · have h : (flightState [0xFF] 0x171#68).len = 1 := rfl
    rw [h] at hk
    obtain rfl : k = 0 := by omega
    rfl
theorem witness_ResetDropsTheCommandInFlight :
    step { flightState [0xFF] 0x171#68 with inputs := [.rst] } = .next { seqState [0xFF] with accepted := 1, dropped := 1 } :=
  rfl

/-- A state past reset that meets the invariant and takes a step that answers a command. -/
theorem witness_StepKeepsTheInvariant :
    (flightState [0xFF] 0x00000008000000002#68).Inv ∧
    step (flightState [0xFF] 0x00000008000000002#68) =
      .next (afterResponse (flightState [0xFF] 0x00000008000000002#68) (.ok 255#32)) := by
  refine ⟨⟨rfl, rfl, rfl, fun _ => rfl, fun r h => ?_, fun r h => ?_⟩, rfl⟩
  · cases h
  · cases h
theorem witness_RunOverMeansAllAnswered :
    ((flightState [0xFF] 0x171#68).answer (.fault .indexOob)).Inv ∧
    ((flightState [0xFF] 0x171#68).answer (.fault .indexOob)).runOver = true := by
  refine ⟨⟨rfl, rfl, rfl, fun h => ?_, fun r h => ?_, fun r h => ?_⟩, rfl⟩
  · cases h
  · cases h; rfl
  · have : r = .fault .indexOob := by simpa [flightState, seqState, State.reset] using h
    subst this
    trivial

end Sys2Proof.Tests
end

section
/-! PROOFS of the family of `10_state.md`: the block has no memory of its own (R10, R12), the owner may change the byte sequence
between commands (R16, R32), and what holds after reset (R18, R120). -/

namespace Sys2Proof.Machine

/-! ### Two states that present the same byte sequence to the block -/

/-- The block cannot tell the two states apart by reading: the same `L`, and every byte read gives the same (R15, R26). -/
structure State.ReadsAlike (s t : State) : Prop where
  len_eq : s.len = t.len
  readByte_eq : ∀ k, s.readByte k = t.readByte k

theorem State.ReadsAlike.symm {s t : State} (h : s.ReadsAlike t) : t.ReadsAlike s :=
  ⟨h.len_eq.symm, fun k => (h.readByte_eq k).symm⟩

/-- The bytes below `L` are all that a read can see (R26). -/
theorem State.readsAlike_of_bytes {s t : State} (hlen : s.bufLen = t.bufLen) (hans : s.memAnswers = t.memAnswers)
    (hmem : ∀ k, k < s.len → s.mem.read k = t.mem.read k) : s.ReadsAlike t := by
  have hl : s.len = t.len := congrArg BitVec.toNat hlen
  refine ⟨hl, fun k => ?_⟩
  by_cases hk : k < s.len
  · simp only [State.readByte, ← hl, ← hans, hmem k hk]
  · rw [State.readByte_of_le (by omega), State.readByte_of_le (by omega)]

/-- A response leaves nothing behind that a read could see (R12, R106). -/
theorem State.readsAlike_answer (s : State) (r : Rsp) : s.ReadsAlike (s.answer r) :=
  State.readsAlike_of_bytes rfl rfl fun _ _ => rfl

theorem State.ReadsAlike.bitAt_eq {s t : State} (h : s.ReadsAlike t) (i : Nat) : s.bitAt i = t.bitAt i := by
  simp only [State.bitAt, h.readByte_eq]

theorem State.ReadsAlike.rangeLoop_eq {s t : State} (h : s.ReadsAlike t) (n i : Nat) (acc : Option Data) :
    rangeLoop s n i acc = rangeLoop t n i acc := by
  induction n generalizing i acc with
  | zero => rfl
  | succ n ih => simp only [rangeLoop, h.len_eq, h.bitAt_eq, ih]

/-! ### A response given from one state is given from the other -/

theorem State.answer_inj {s : State} {r r' : Rsp} (h : s.answer r = s.answer r') : r = r' :=
  Option.some.inj (congrArg State.rsp h)

/-- Whatever response the outcome `o` gives from `s`, the outcome `o'` gives from `t`. -/
def SameResponse (s t : State) (o o' : Host.Outcome State Fault Refusal) : Prop :=
  ∀ r, o = .next (s.answer r) → o' = .next (t.answer r)

theorem sameResponse_raise (s t : State) (cause : Cause) : SameResponse s t (s.raise cause) (t.raise cause) := by
  intro r h
  obtain rfl : .fault cause = r := State.answer_inj (Host.Outcome.next.inj h)
  rfl

theorem sameResponse_deliver (s t : State) (data : Option Data) :
    SameResponse s t (s.deliver data) (t.deliver data) := by
  intro r h
  obtain ⟨d, rfl, hr⟩ := deliver_next h
  obtain rfl := State.answer_inj hr
  rfl

theorem State.ReadsAlike.sameResponse_getbit {s t : State} (h : s.ReadsAlike t) (index : Nat) :
    SameResponse s t (execGetbit index s) (execGetbit index t) := by
  unfold execGetbit
  rw [h.len_eq, h.bitAt_eq]
  split
  · exact sameResponse_deliver s t _
  · exact sameResponse_raise s t .indexOob

theorem State.ReadsAlike.sameResponse_getrange {s t : State} (h : s.ReadsAlike t) (start stop : Nat) :
    SameResponse s t (execGetrange start stop s) (execGetrange start stop t) := by
  unfold execGetrange
  rw [h.len_eq, h.rangeLoop_eq]
  split_ifs
  · exact sameResponse_raise s t .rangeReversed
  · cases rangeLoop t (stop - start) start (some 0#32) with
    | error cause => exact sameResponse_raise s t cause
    | ok data => exact sameResponse_deliver s t data
  · exact sameResponse_raise s t .rangeTooWide
  · exact sameResponse_raise s t .rangeEndOob

/-- A command word, legal or not, is answered alike where the reads are alike. -/
theorem State.ReadsAlike.sameResponse_runCommand {s t : State} (h : s.ReadsAlike t) (cmd : BitVec Config.commandBits) :
    SameResponse s t (runCommand cmd s) (runCommand cmd t) := by
  unfold runCommand
  cases decode cmd with
  | error _ => exact sameResponse_raise s t .illegalCmd
  | ok i =>
    cases i with
    | getbit index => exact h.sameResponse_getbit index
    | getrange start stop => exact h.sameResponse_getrange start stop

/-- Settles O28: below `L` the reads agree by hypothesis, and beyond `L` neither state has a byte to read. -/
theorem responseDependsOnlyOnTheSequence : Obligations.ResponseDependsOnlyOnTheSequence := by
  intro s t cmd r hlen hans hmem
  exact (State.readsAlike_of_bytes hlen hans hmem).sameResponse_runCommand cmd r

/-- Settles O29: the state after a response reads as the state before it. -/
theorem earlierCommandsDoNotMatter : Obligations.EarlierCommandsDoNotMatter := by
  intro s t first second r hfirst
  obtain ⟨r₁, rfl, -⟩ := runCommand_next hfirst
  have halike := s.readsAlike_answer r₁
  exact ⟨halike.sameResponse_runCommand second r, halike.symm.sameResponse_runCommand second r⟩

/-! ### The owner's moves between commands -/

theorem changeSequence_of_idle {s : State} (t : State) (h : s.inFlight = none) : changeSequence s t = .next t := by
  simp [changeSequence, h]

theorem step_present_of_idle {s : State} {len : BitVec Config.indexWidth} {bytes : List Byte} {rest : List Input}
    (hf : s.inFlight = none) (hi : s.inputs = .present len bytes :: rest) :
    step s = .next ({ s with inputs := rest }.install len bytes) := by
  simp only [step, turn, hi, inputTurn]
  exact changeSequence_of_idle _ hf

theorem step_write_of_idle {s : State} {index : Nat} {byte : Byte} {rest : List Input}
    (hf : s.inFlight = none) (hi : s.inputs = .write index byte :: rest) :
    step s = .next ({ s with inputs := rest }.poke index byte) := by
  simp only [step, turn, hi, inputTurn]
  exact changeSequence_of_idle _ hf

theorem State.poke_of_lt {s : State} {index : Nat} (byte : Byte) (h : index < s.len) :
    s.poke index byte = { s with mem := s.mem.write index byte } := by
  simp only [State.poke, if_pos h]

/-- Log 6: a write at or beyond `L` writes no byte of the sequence. -/
theorem State.poke_of_le {s : State} {index : Nat} (byte : Byte) (h : s.len ≤ index) : s.poke index byte = s := by
  simp only [State.poke, if_neg (Nat.not_lt.2 h)]

/-- The storage that `present` brings reads by position below `len`. -/
theorem Memory.read_presented_of_lt (bytes : List Byte) {len k : Nat} (h : k < len) :
    ((Memory.ofBytes bytes).below len).read k = bytes[k]? := by
  rw [Memory.read_below, if_pos h, Memory.read_ofBytes]

/-- It holds nothing at or beyond `len`, surplus bytes presented or not (R26). -/
theorem Memory.read_presented_of_le (bytes : List Byte) {len k : Nat} (h : len ≤ k) :
    ((Memory.ofBytes bytes).below len).read k = none := by
  rw [Memory.read_below, if_neg (Nat.not_lt.2 h)]

/-- Settles O50, one clause for each move: the idle block lets it through, and the storage then reads by the laws of `below` and
`write`. -/
theorem ownerMayChangeTheSequenceBetweenCommands : Obligations.OwnerMayChangeTheSequenceBetweenCommands := by
  intro s rest hf
  refine ⟨fun len bytes hi => ?_, fun index byte hi => ⟨fun hlt => ?_, fun hle => ?_⟩⟩
  · exact ⟨_, step_present_of_idle hf hi, rfl, fun k hk => Memory.read_presented_of_lt bytes hk,
      fun k hk => Memory.read_presented_of_le bytes hk⟩
  · have hstep := step_write_of_idle hf hi
    rw [State.poke_of_lt (s := { s with inputs := rest }) byte hlt] at hstep
    exact ⟨_, hstep, rfl, Memory.read_write_same s.mem index byte,
      fun k hk => Memory.read_write_other s.mem byte hk⟩
  · rw [step_write_of_idle hf hi, State.poke_of_le (s := { s with inputs := rest }) byte hle]

/-! ### After reset -/

/-- Settles O52: each part is the value a field has in the reset state, or what a port makes of it. -/
theorem resetLeavesTheBlockIdle : Obligations.ResetLeavesTheBlockIdle :=
  ⟨rfl, rfl, rfl, rfl, rfl⟩

/-- Settles O53: nothing is stored, accepted, in flight, presented or recorded yet. -/
theorem resetMeetsTheInvariant : Obligations.ResetMeetsTheInvariant where
  canonical := Memory.wf_reset
  inSequence := rfl
  accounted := rfl
  oneAtATime := fun _ => rfl
  presented := fun _ h => nomatch h
  narrow := fun _ h => absurd h List.not_mem_nil

end Sys2Proof.Machine
end

section
/-! PROOFS of the family of `20_memory.md`: the storage behind the read port (R20), what a read can see (R26), what a command reads
(R25) and that it writes nothing (R27), and the invariant every step keeps. -/

namespace Sys2Proof.Machine

/-! ### The invariant, one lemma for each thing a step can do -/

/-- The moves still to come and whether reads are answered are no part of the invariant. -/
theorem State.Inv.withEnvironment {s : State} (h : s.Inv) (inputs : List Input) (live : Bool) :
    { s with inputs := inputs, memAnswers := live }.Inv :=
  ⟨h.canonical, h.inSequence, h.accounted, h.oneAtATime, h.presented, h.narrow⟩

theorem State.Inv.withInputs {s : State} (h : s.Inv) (inputs : List Input) : { s with inputs := inputs }.Inv :=
  h.withEnvironment inputs s.memAnswers

/-- A command in flight becomes one more response (R49 (b)), whose data is narrow (R81). -/
theorem State.Inv.answer {s : State} (h : s.Inv) {cmd : BitVec Config.commandBits} (hf : s.inFlight = some cmd)
    {r : Rsp} (hr : Rsp.narrow r) : (s.answer r).Inv where
  canonical := h.canonical
  inSequence := h.inSequence
  accounted := by
    have := h.accounted
    simp only [hf, Option.toList_some, List.length_singleton] at this
    simp only [State.answer_accepted, State.answer_history, State.answer_dropped, State.answer_inFlight,
      List.length_append, List.length_singleton, Option.toList_none, List.length_nil]
    omega
  oneAtATime := by simp
  presented := by simp
  narrow := by
    intro r' hr'
    rcases List.mem_append.1 hr' with hold | hnew
    · exact h.narrow r' hold
    · rw [List.mem_singleton.1 hnew]
      exact hr

/-- An idle block takes one more command in flight, and no response stays presented (log 8). -/
theorem State.Inv.accept {s : State} (h : s.Inv) (hf : s.inFlight = none) (cmd : BitVec Config.commandBits) :
    (s.accept cmd).Inv where
  canonical := h.canonical
  inSequence := h.inSequence
  accounted := by simp [h.accounted, hf]
  oneAtATime := by simp
  presented := by simp
  narrow := h.narrow

/-- The sequence put in place is laid out from index 0 and cut off at `L` (R20, R26). -/
theorem State.Inv.install {s : State} (h : s.Inv) (len : BitVec Config.indexWidth) (bytes : List Byte) :
    (s.install len bytes).Inv where
  canonical := Memory.wf_below _ (Memory.wf_ofBytes bytes)
  inSequence := Memory.below_below _ _
  accounted := h.accounted
  oneAtATime := h.oneAtATime
  presented := h.presented
  narrow := h.narrow

/-- A write below `L` keeps the storage canonical and within `L`. -/
theorem State.Inv.write {s : State} (h : s.Inv) {index : Nat} (byte : Byte) (hlt : index < s.len) :
    { s with mem := s.mem.write index byte }.Inv where
  canonical := Memory.wf_write index byte h.canonical
  inSequence := Memory.below_write byte h.inSequence hlt
  accounted := h.accounted
  oneAtATime := h.oneAtATime
  presented := h.presented
  narrow := h.narrow

theorem State.Inv.poke {s : State} (h : s.Inv) (index : Nat) (byte : Byte) : (s.poke index byte).Inv := by
  rcases Nat.lt_or_ge index s.len with hlt | hle
  · rw [State.poke_of_lt byte hlt]
    exact h.write byte hlt
  · rw [State.poke_of_le byte hle]
    exact h

/-- A command in flight becomes one more dropped one (R120). -/
theorem State.Inv.assertRst {s : State} (h : s.Inv) : s.assertRst.Inv where
  canonical := h.canonical
  inSequence := h.inSequence
  accounted := by simp [h.accounted, Nat.add_assoc]
  oneAtATime := by simp
  presented := by simp
  narrow := h.narrow

/-- Settles O54: `step_next` lists what a step can do, and each of these keeps the invariant. -/
theorem stepKeepsTheInvariant : Obligations.StepKeepsTheInvariant := by
  intro s t h hstep
  rcases step_next hstep with
    ⟨-, rfl⟩ | ⟨cmd, r, hf, -, rfl, hr⟩ | ⟨rest, -, -, rfl⟩ | ⟨cmd, rest, -, hf, rfl⟩ |
    ⟨len, bytes, rest, -, rfl⟩ | ⟨index, byte, rest, -, rfl⟩ | ⟨rest, -, rfl⟩ | ⟨live, rest, -, rfl⟩
  · exact h
  · exact h.answer hf hr
  · exact h.withInputs rest
  · exact (h.withInputs rest).accept hf cmd
  · exact (h.withInputs rest).install len bytes
  · exact (h.withInputs rest).poke index byte
  · exact (h.withInputs rest).assertRst
  · exact h.withEnvironment rest live

/-! ### A command writes nothing (R27) -/

/-- Settles O26: all a command word can do is present a response, which leaves `L` and the storage alone. -/
theorem commandsNeverWriteMemory : Obligations.CommandsNeverWriteMemory := by
  intro s t cmd hrun
  obtain ⟨r, rfl, -⟩ := runCommand_next hrun
  exact ⟨s.answer_bufLen r, s.answer_mem r, fun _ => rfl, r, s.answer_eq_afterResponse r⟩

/-! ### What a command reads (R25) -/

/-- A bit with a value lies in a byte below `L` that is present. -/
theorem State.byte_of_bitAt {s : State} {i : Nat} {t : Bool} (h : s.bitAt i = some t) :
    byteIndex i < s.len ∧ ∃ b : Byte, s.mem.read (byteIndex i) = some b := by
  obtain ⟨b, hb, -⟩ := State.bitAt_eq_some.1 h
  obtain ⟨hlt, -, hread⟩ := State.readByte_eq_some.1 hb
  exact ⟨hlt, b, hread⟩

/-- The iteration of R75 ends with a value only if every bit it visits has one. -/
theorem bitAt_of_rangeLoop {s : State} {n i : Nat} {acc : Option Data} {d : Data}
    (h : rangeLoop s n i acc = .ok (some d)) :
    (∃ a, acc = some a) ∧ ∀ j, i ≤ j → j < i + n → ∃ t, s.bitAt j = some t := by
  induction n generalizing i acc with
  | zero => exact ⟨⟨d, Except.ok.inj h⟩, fun j hj hj' => by omega⟩
  | succ n ih =>
    unfold rangeLoop at h
    split at h
    · obtain ⟨⟨a', hacc⟩, hrest⟩ := ih h
      obtain ⟨a, t, rfl, hbit, -⟩ := shiftIn_eq_some.1 hacc
      refine ⟨⟨a, rfl⟩, fun j hj hj' => ?_⟩
      rcases Nat.eq_or_lt_of_le hj with rfl | hlt
      · exact ⟨t, hbit⟩
      · exact hrest j hlt (by omega)
    · cases h

/-- Taking the exception presents no value. -/
theorem State.raised_ne_ok {s : State} {cause : Cause} {d : Data} :
    (.next (s.answer (.fault cause)) : Host.Outcome State Fault Refusal) ≠ .next (s.answer (.ok d)) :=
  fun h => nomatch State.answer_inj (Host.Outcome.next.inj h)

theorem deliver_ok {data : Option Data} {s : State} {d : Data} (h : s.deliver data = .next (s.answer (.ok d))) :
    data = some d := by
  obtain ⟨d', hd, ht⟩ := deliver_next h
  obtain rfl := Rsp.ok.inj (State.answer_inj ht)
  exact hd

theorem bitAt_of_execGetbit {s : State} {index : Nat} {d : Data}
    (h : execGetbit index s = .next (s.answer (.ok d))) : ∃ t, s.bitAt index = some t := by
  rcases execGetbit_cases index s with ⟨-, e⟩ | ⟨-, e⟩ <;> rw [e] at h
  · exact absurd h State.raised_ne_ok
  · obtain ⟨t, ht, -⟩ := Option.map_eq_some_iff.1 (deliver_ok h)
    exact ⟨t, ht⟩

/-- A range that returns a value is shorter than 32 bits, and each of its bits has a value. -/
theorem bitAt_of_execGetrange {s : State} {start stop : Nat} {d : Data}
    (h : execGetrange start stop s = .next (s.answer (.ok d))) :
    stop < start + 32 ∧ ∀ j, start ≤ j → j < stop → ∃ t, s.bitAt j = some t := by
  rcases execGetrange_cases start stop s with
    ⟨-, e⟩ | ⟨-, -, e⟩ | ⟨-, -, e⟩ | ⟨-, -, -, -, e⟩ | ⟨-, -, hwide, -, data, hloop, e⟩ <;> rw [e] at h
  case inr.inr.inr.inr =>
    obtain rfl := deliver_ok h
    obtain ⟨-, hbits⟩ := bitAt_of_rangeLoop hloop
    exact ⟨hwide, fun j hj hj' => hbits j hj (by omega)⟩
  all_goals exact absurd h State.raised_ne_ok

theorem mem_readSet_getrange {start stop k : Nat} (h : start < stop) :
    k ∈ readSet (.getrange start stop) ↔ start / 8 ≤ k ∧ k ≤ (stop - 1) / 8 := by
  simp only [readSet, if_pos h, List.mem_range'_1, bytesTouched, firstByte, lastByte, byteIndex, Config.byteBits]
  omega

theorem readSet_getrange_of_le {start stop : Nat} (h : stop ≤ start) : readSet (.getrange start stop) = [] :=
  if_neg (Nat.not_lt.2 h)

/-- R91: a range shorter than 32 bits touches at most five bytes. -/
theorem length_readSet_getrange {start stop : Nat} (h : stop < start + 32) :
    (readSet (.getrange start stop)).length ≤ 5 := by
  rcases Nat.lt_or_ge start stop with hlt | hle
  · simp only [readSet, if_pos hlt, List.length_range', bytesTouched, firstByte, lastByte, byteIndex, Config.byteBits]
    omega
  · simp [readSet_getrange_of_le hle]

/-- Every byte of a range's read set holds a bit of the range. -/
theorem exists_bit_of_mem_readSet {start stop k : Nat} (hk : k ∈ readSet (.getrange start stop)) :
    ∃ j, start ≤ j ∧ j < stop ∧ byteIndex j = k := by
  rcases Nat.lt_or_ge start stop with hlt | hle
  · have := (mem_readSet_getrange hlt).1 hk
    exact ⟨max start (8 * k), by unfold byteIndex Config.byteBits; omega⟩
  · rw [readSet_getrange_of_le hle] at hk
    exact absurd hk List.not_mem_nil

/-- A command that returns a value finds each byte of its read set below `L` and present, at most five of them. -/
theorem readSet_of_exec_ok {i : Instr} {s : State} {d : Data} (h : exec i s = .next (s.answer (.ok d))) :
    (readSet i).length ≤ 5 ∧ ∀ k, k ∈ readSet i → k < s.len ∧ ∃ b : Byte, s.mem.read k = some b := by
  cases i with
  | getbit index =>
    obtain ⟨t, ht⟩ := bitAt_of_execGetbit h
    refine ⟨by simp [readSet], fun k hk => ?_⟩
    obtain rfl := List.mem_singleton.1 hk
    exact State.byte_of_bitAt ht
  | getrange start stop =>
    obtain ⟨hwide, hbits⟩ := bitAt_of_execGetrange h
    refine ⟨length_readSet_getrange hwide, fun k hk => ?_⟩
    obtain ⟨j, hj, hj', rfl⟩ := exists_bit_of_mem_readSet hk
    obtain ⟨t, ht⟩ := hbits j hj hj'
    exact State.byte_of_bitAt ht

/-- Settles O27: the value needs every bit, and every byte of the read set holds one of them. -/
theorem readSetIsBelowLength : Obligations.ReadSetIsBelowLength :=
  ⟨fun _ _ _ h => readSet_of_exec_ok h, fun _ => rfl, fun _ _ hlt _ => mem_readSet_getrange hlt,
    fun start => readSet_getrange_of_le (Nat.le_refl start)⟩

/-! ### The canonical form of the storage (R20) -/

theorem Memory.read_of_lt_risesFrom {m : Memory} {k i : Nat} (h : Memory.risesFrom k m = true) (hi : i < k) :
    m.read i = none := by
  induction m generalizing k with
  | nil => rfl
  | cons c rest ih =>
    obtain ⟨j, b⟩ := c
    simp only [Memory.risesFrom, Bool.and_eq_true, decide_eq_true_eq] at h
    obtain ⟨hkj, hrest⟩ := h
    rw [Memory.read, if_neg (by omega)]
    exact ih hrest (by omega)

/-- The least index with a byte is the first entry's. -/
theorem Memory.le_of_read_cons {m : Memory} {k j : Nat} {b c : Byte} (h : Memory.risesFrom (k + 1) m = true)
    (hj : Memory.read ((k, b) :: m) j = some c) : k ≤ j := by
  by_contra hlt
  rw [Memory.read, if_neg (by omega), Memory.read_of_lt_risesFrom h (by omega)] at hj
  cases hj

theorem Memory.read_cons_self (k : Nat) (b : Byte) (m : Memory) : Memory.read ((k, b) :: m) k = some b :=
  if_pos rfl

/-- Two storages that rise and read alike have the same first entry, so by induction the same entries. -/
theorem Memory.ext_of_risesFrom {m n : Memory} {k l : Nat} (hm : Memory.risesFrom k m = true)
    (hn : Memory.risesFrom l n = true) (h : ∀ i, m.read i = n.read i) : m = n := by
  induction m generalizing n k l with
  | nil =>
    cases n with
    | nil => rfl
    | cons d rest => exact absurd ((h d.1).trans (Memory.read_cons_self ..)) (by simp [Memory.read])
  | cons c m ih =>
    obtain ⟨i, a⟩ := c
    cases n with
    | nil => exact absurd ((h i).symm.trans (Memory.read_cons_self ..)) (by simp [Memory.read])
    | cons d n =>
      obtain ⟨j, b⟩ := d
      simp only [Memory.risesFrom, Bool.and_eq_true, decide_eq_true_eq] at hm hn
      obtain ⟨-, hm⟩ := hm
      obtain ⟨-, hn⟩ := hn
      obtain rfl : i = j := Nat.le_antisymm
        (Memory.le_of_read_cons hm ((h j).trans (Memory.read_cons_self ..)))
        (Memory.le_of_read_cons hn ((h i).symm.trans (Memory.read_cons_self ..)))
      obtain rfl : a = b := by simpa [Memory.read] using h i
      rw [ih hm hn fun x => ?_]
      by_cases hx : x = i
      · rw [Memory.read_of_lt_risesFrom hm (by omega), Memory.read_of_lt_risesFrom hn (by omega)]
      · simpa [Memory.read, hx] using h x

/-- Settles O30, by induction on the storage. -/
theorem canonicalStorageIsDeterminedByItsBytes : Obligations.CanonicalStorageIsDeterminedByItsBytes :=
  fun _ _ hm hn h => Memory.ext_of_risesFrom hm hn h

/-! ### Nothing is read at or beyond `L` (R26) -/

/-- Bytes whose last lies at or beyond `L` are no number. -/
theorem State.readBytes_beyond {s : State} {k n : Nat} (hn : 1 ≤ n) (h : s.len < k + n) : s.readBytes k n = none := by
  obtain ⟨m, rfl⟩ := Nat.exists_eq_add_of_le' hn
  rw [State.readBytes, State.readByte_of_le (by omega)]
  cases s.readBytes k m <;> rfl

theorem State.bitAt_beyond {s : State} {b : Nat} (h : 8 * s.len ≤ b) : s.bitAt b = none := by
  rw [State.bitAt, State.readByte_of_le (by unfold byteIndex Config.byteBits; omega)]
  rfl

/-- The byte-at-a-time form has no value once one of the bytes it takes has none. -/
theorem State.byteSerialLoop_of_missing {s : State} {k0 n off tail count j i : Nat} {acc : Data}
    (hj : j ≤ i) (hi : i < j + count) (h : s.readByte (k0 + i) = none) :
    s.byteSerialLoop k0 n off tail count j acc = none := by
  induction count generalizing j acc with
  | zero => omega
  | succ count ih =>
    unfold State.byteSerialLoop
    split
    · rename_i byte hbyte
      have hne : j ≠ i := by rintro rfl; rw [h] at hbyte; cases hbyte
      exact ih (by omega) (by omega)
    · rfl

/-- R66: the last of the bytes a non-empty range touches is the one that holds its last bit. -/
theorem firstByte_add_bytesTouched {start stop : Nat} (h : start < stop) :
    firstByte start + bytesTouched start stop = lastByte stop + 1 := by
  unfold bytesTouched lastByte firstByte byteIndex Config.byteBits
  omega

/-- A range that ends beyond `8*L` has its last byte at or beyond `L`. -/
theorem State.len_le_lastByte {s : State} {stop : Nat} (h : 8 * s.len < stop) : s.len ≤ lastByte stop := by
  unfold lastByte byteIndex Config.byteBits
  omega

theorem State.shifterData_beyond {s : State} {start stop : Nat} (hlt : start < stop) (h : 8 * s.len < stop) :
    s.shifterData start stop = none := by
  have hlast := State.len_le_lastByte h
  have hbytes : s.readBytes (firstByte start) (bytesTouched start stop) = none :=
    State.readBytes_beyond (Nat.le_add_left ..) (by rw [firstByte_add_bytesTouched hlt]; omega)
  rw [State.shifterData, hbytes]
  rfl

theorem State.byteSerialData_beyond {s : State} {start stop : Nat} (hlt : start < stop) (h : 8 * s.len < stop) :
    s.byteSerialData start stop = none := by
  have hlast := State.len_le_lastByte h
  have hsum := firstByte_add_bytesTouched hlt
  refine State.byteSerialLoop_of_missing (i := lastByte stop - firstByte start) (Nat.zero_le _) ?_
    (State.readByte_of_le ?_)
  · simp [bytesTouched]
  · unfold bytesTouched at hsum
    omega

/-- Settles O56, each form of a read by its own lemma. -/
theorem readsBeyondLengthHaveNoValue : Obligations.ReadsBeyondLengthHaveNoValue :=
  ⟨fun _ _ => ⟨State.readByte_of_le, State.readByte_of_lt⟩, fun _ _ _ => State.readBytes_beyond,
    fun _ _ => State.bitAt_beyond,
    fun _ _ _ hlt h => ⟨State.shifterData_beyond hlt h, State.byteSerialData_beyond hlt h⟩⟩

/-! ### The bit of a byte (R22) -/

/-- The shift form: the selected bit, shifted down to position 0. -/
theorem selectBit_eq_true_iff (byte : Byte) (off : Nat) :
    selectBit byte off = true ↔ (byte >>> (7 - off)) &&& 1#8 = 1#8 := by
  have hbit : selectBit byte off = (byte >>> (7 - off)).getLsbD 0 := by simp [selectBit]
  rw [hbit, BitVec.and_one_eq_setWidth_ofBool_getLsbD]
  cases (byte >>> (7 - off)).getLsbD 0 <;> decide

/-- Settles O5: the shift form, and the weight by R22's formula. -/
theorem selectedBitIsMsbFirst : Obligations.SelectedBitIsMsbFirst :=
  fun byte off _ => ⟨selectBit_eq_true_iff byte off, boolData_selectBit_toNat byte off⟩

/-! ### The word that `withFetchWord` places (R34, R49) -/

theorem runCommand_of_decode {cmd : BitVec Config.commandBits} {i : Instr} (h : decode cmd = .ok i) (s : State) :
    runCommand cmd s = exec i s := by
  rw [runCommand, h]

theorem decodeOption_eq_some {cmd : BitVec Config.commandBits} {i : Instr} :
    decodeOption cmd = some i ↔ decode cmd = .ok i := by
  unfold decodeOption
  cases decode cmd <;> simp

/-- What the table's decoder reads is what the block's decoder reads from the word placed. -/
theorem decode_tableWord {nbits w : Nat} {i : Instr} (h : decodeTableWord nbits w = some i) :
    decode (tableWord nbits w) = .ok i := by
  unfold decodeTableWord at h
  split at h
  · exact decodeOption_eq_some.1 h
  · cases h

/-- Settles O46: the word placed is in flight and undisturbed, so the step answers it. -/
theorem nextStepRunsThePlacedWord : Obligations.NextStepRunsThePlacedWord := by
  intro s nbits w i h
  unfold State.withFetchWord
  rw [step_of_quiet (offer_inFlight _ s) (offer_quiet _ s), runCommand_of_decode (decode_tableWord h)]

end Sys2Proof.Machine
end

section
/-! PROOFS of the family of `30_encoding.md`: the fields of a command word (R40, R41), the decoder and the encoder (R42 to R45),
the response word (R47), the transaction (R49) and the assembler text (R50). -/

namespace Sys2Proof

/-! ### The three fields of a command word (R40, R41) -/

theorem cmdOp_toNat (iw : Nat) (cmd : BitVec (Config.cmdWidth iw)) : (cmdOp iw cmd).toNat = cmd.toNat % 2 ^ 4 := by
  rw [cmdOp, BitVec.extractLsb'_toNat, Nat.shiftRight_zero]

theorem cmdA_eq (iw : Nat) (cmd : BitVec (Config.cmdWidth iw)) : cmdA iw cmd = cmd.toNat / 2 ^ 4 % 2 ^ iw := by
  rw [cmdA, BitVec.extractLsb'_toNat, Nat.shiftRight_eq_div_pow]

theorem cmdB_eq (iw : Nat) (cmd : BitVec (Config.cmdWidth iw)) : cmdB iw cmd = cmd.toNat / 2 ^ (iw + 4) % 2 ^ iw := by
  rw [cmdB, BitVec.extractLsb'_toNat, Nat.shiftRight_eq_div_pow]

theorem cmdA_lt (iw : Nat) (cmd : BitVec (Config.cmdWidth iw)) : cmdA iw cmd < 2 ^ iw := BitVec.isLt _

theorem cmdB_lt (iw : Nat) (cmd : BitVec (Config.cmdWidth iw)) : cmdB iw cmd < 2 ^ iw := BitVec.isLt _

theorem two_pow_cmdWidth (iw : Nat) : 2 ^ Config.cmdWidth iw = 2 ^ (iw + 4) * 2 ^ iw := by
  rw [← Nat.pow_add]
  congr 1
  unfold Config.cmdWidth
  omega

/-- Field `b` is the topmost one: nothing stands above it. -/
theorem cmd_div_lt (iw : Nat) (cmd : BitVec (Config.cmdWidth iw)) : cmd.toNat / 2 ^ (iw + 4) < 2 ^ iw :=
  Nat.div_lt_of_lt_mul (cmd.isLt.trans_eq (two_pow_cmdWidth iw))

/-- The word divided by `2^(iw + 4)` leaves `b` and the two lower fields; those divided by 16 leave `a` and `op`. -/
theorem cmd_toNat_eq_fields (iw : Nat) (cmd : BitVec (Config.cmdWidth iw)) :
    cmd.toNat = cmdB iw cmd * 2 ^ (iw + 4) + cmdA iw cmd * 2 ^ 4 + (cmdOp iw cmd).toNat := by
  have hlow : cmd.toNat % 2 ^ (iw + 4) = cmd.toNat % 2 ^ 4 + 2 ^ 4 * (cmd.toNat / 2 ^ 4 % 2 ^ iw) := by
    rw [Nat.add_comm iw, Nat.pow_add, Nat.mod_mul]
  rw [cmdB_eq, cmdA_eq, cmdOp_toNat, Nat.mod_eq_of_lt (cmd_div_lt iw cmd)]
  calc cmd.toNat
      = 2 ^ (iw + 4) * (cmd.toNat / 2 ^ (iw + 4)) + cmd.toNat % 2 ^ (iw + 4) := (Nat.div_add_mod _ _).symm
    _ = _ := by rw [hlow, Nat.mul_comm]; omega

/-- A command word is determined by its three fields. -/
theorem cmd_ext {iw : Nat} {cmd cmd' : BitVec (Config.cmdWidth iw)} (hop : cmdOp iw cmd = cmdOp iw cmd')
    (ha : cmdA iw cmd = cmdA iw cmd') (hb : cmdB iw cmd = cmdB iw cmd') : cmd = cmd' := by
  apply BitVec.eq_of_toNat_eq
  rw [cmd_toNat_eq_fields iw cmd, cmd_toNat_eq_fields iw cmd', hop, ha, hb]

/-- Settles O33: the word's division by the weights of its fields. -/
theorem commandWordIsItsThreeFields : Obligations.CommandWordIsItsThreeFields :=
  fun iw cmd => ⟨cmd_toNat_eq_fields iw cmd, cmdA_lt iw cmd, cmdB_lt iw cmd⟩

/-! ### The decoder, one equation per test (R45) -/

theorem decodeCmd_getbit {iw : Nat} {cmd : BitVec (Config.cmdWidth iw)} (hop : cmdOp iw cmd = 1#4)
    (hb : cmdB iw cmd = 0) : decodeCmd iw cmd = .ok (.getbit (cmdA iw cmd)) := by
  rw [decodeCmd, if_pos hop, if_pos hb]

theorem decodeCmd_reservedField {iw : Nat} {cmd : BitVec (Config.cmdWidth iw)} (hop : cmdOp iw cmd = 1#4)
    (hb : cmdB iw cmd ≠ 0) : decodeCmd iw cmd = .error (.reservedField (cmdB iw cmd)) := by
  rw [decodeCmd, if_pos hop, if_neg hb]

theorem decodeCmd_getrange {iw : Nat} {cmd : BitVec (Config.cmdWidth iw)} (hop : cmdOp iw cmd = 2#4) :
    decodeCmd iw cmd = .ok (.getrange (cmdA iw cmd) (cmdB iw cmd)) := by
  rw [decodeCmd, if_neg (by rw [hop]; decide), if_pos hop]

theorem decodeCmd_reservedOp {iw : Nat} {cmd : BitVec (Config.cmdWidth iw)} (h1 : cmdOp iw cmd ≠ 1#4)
    (h2 : cmdOp iw cmd ≠ 2#4) : decodeCmd iw cmd = .error (.reservedOp (cmdOp iw cmd)) := by
  rw [decodeCmd, if_neg h1, if_neg h2]

/-- Settles O34, one clause for each equation of the decoder. -/
theorem decoderPartitionsAllWords : Obligations.DecoderPartitionsAllWords :=
  fun _ _ => ⟨decodeCmd_getbit, decodeCmd_reservedField, decodeCmd_getrange, decodeCmd_reservedOp⟩

/-- A word decodes to an instruction exactly when its three fields are the instruction's (R42). -/
theorem decodeCmd_eq_ok_iff {iw : Nat} {cmd : BitVec (Config.cmdWidth iw)} {i : Instr} :
    decodeCmd iw cmd = .ok i ↔
      cmdOp iw cmd = i.opcode ∧ cmdA iw cmd = i.fieldA ∧ cmdB iw cmd = i.fieldB := by
  constructor
  · intro h
    by_cases h1 : cmdOp iw cmd = 1#4
    · by_cases hb : cmdB iw cmd = 0
      · obtain rfl := Except.ok.inj ((decodeCmd_getbit h1 hb).symm.trans h)
        exact ⟨h1, rfl, hb⟩
      · cases (decodeCmd_reservedField h1 hb).symm.trans h
    · by_cases h2 : cmdOp iw cmd = 2#4
      · obtain rfl := Except.ok.inj ((decodeCmd_getrange h2).symm.trans h)
        exact ⟨h2, rfl, rfl⟩
      · cases (decodeCmd_reservedOp h1 h2).symm.trans h
  · rintro ⟨hop, ha, hb⟩
    cases i with
    | getbit index => rw [decodeCmd_getbit hop hb, ha]; rfl
    | getrange start stop => rw [decodeCmd_getrange hop, ha, hb]; rfl

/-! ### The encoder (R40, R42) -/

/-- Both fields fit: for `getbit` field `b` is 0, which always does. -/
theorem Instr.wellFormed_iff {iw : Nat} {i : Instr} :
    i.wellFormed iw = true ↔ i.fieldA < 2 ^ iw ∧ i.fieldB < 2 ^ iw := by
  cases i with
  | getbit index => simp [Instr.wellFormed, Instr.fieldA, Instr.fieldB]
  | getrange start stop => simp [Instr.wellFormed, Instr.fieldA, Instr.fieldB]

theorem lowFields_lt {iw a op : Nat} (ha : a < 2 ^ iw) (hop : op < 2 ^ 4) : a * 2 ^ 4 + op < 2 ^ (iw + 4) := by
  rw [Nat.pow_add]
  omega

/-- Fields that fit lie side by side: each is or-ed onto bits the ones above it leave zero. -/
theorem or_fields_eq_add (iw b : Nat) {a op : Nat} (ha : a < 2 ^ iw) (hop : op < 2 ^ 4) :
    (b <<< (iw + 4)) ||| (a <<< 4) ||| op = b * 2 ^ (iw + 4) + (a * 2 ^ 4 + op) := by
  rw [Nat.or_assoc, ← Nat.shiftLeft_add_eq_or_of_lt hop, Nat.shiftLeft_eq a,
    ← Nat.shiftLeft_add_eq_or_of_lt (lowFields_lt ha hop), Nat.shiftLeft_eq b]

theorem encodeCmd_toNat {iw : Nat} {i : Instr} (h : i.wellFormed iw = true) :
    (encodeCmd iw i).toNat = i.fieldB * 2 ^ (iw + 4) + (i.fieldA * 2 ^ 4 + i.opcode.toNat) := by
  obtain ⟨ha, hb⟩ := Instr.wellFormed_iff.1 h
  have hlow := lowFields_lt ha i.opcode.isLt
  rw [encodeCmd, BitVec.toNat_ofNat, or_fields_eq_add iw _ ha i.opcode.isLt, Nat.mod_eq_of_lt]
  calc i.fieldB * 2 ^ (iw + 4) + (i.fieldA * 2 ^ 4 + i.opcode.toNat)
      < (i.fieldB + 1) * 2 ^ (iw + 4) := by rw [Nat.succ_mul]; omega
    _ ≤ 2 ^ iw * 2 ^ (iw + 4) := Nat.mul_le_mul_right _ hb
    _ = 2 ^ Config.cmdWidth iw := by rw [two_pow_cmdWidth, Nat.mul_comm]

theorem cmdOp_encodeCmd (iw : Nat) (i : Instr) : cmdOp iw (encodeCmd iw i) = i.opcode :=
  Laws.EncodeOpcode.cmdOp_encodeCmd iw i.fieldA i.fieldB i.opcode

/-- The word and its fields are the same number, so the fields above `op` agree, and of these `a` is the lower. -/
theorem cmdB_cmdA_encodeCmd {iw : Nat} {i : Instr} (h : i.wellFormed iw = true) :
    cmdB iw (encodeCmd iw i) = i.fieldB ∧ cmdA iw (encodeCmd iw i) = i.fieldA := by
  obtain ⟨ha, -⟩ := Instr.wellFormed_iff.1 h
  have hword := cmd_toNat_eq_fields iw (encodeCmd iw i)
  rw [encodeCmd_toNat h, cmdOp_encodeCmd, Nat.pow_add, ← Nat.mul_assoc, ← Nat.mul_assoc] at hword
  have hab : cmdA iw (encodeCmd iw i) + 2 ^ iw * cmdB iw (encodeCmd iw i) = i.fieldA + 2 ^ iw * i.fieldB := by
    rw [Nat.mul_comm _ (cmdB ..), Nat.mul_comm _ i.fieldB]
    omega
  have hpos := Nat.two_pow_pos iw
  obtain ⟨hb, ha'⟩ := (Nat.div_mod_unique hpos).2 ⟨hab, cmdA_lt iw _⟩
  obtain ⟨hb', ha''⟩ := (Nat.div_mod_unique hpos).2 ⟨rfl, ha⟩
  exact ⟨hb.symm.trans hb', ha'.symm.trans ha''⟩

/-- Settles O31: the fields of the encoding are the instruction's. -/
theorem decodeInvertsEncode : Obligations.DecodeInvertsEncode := by
  intro iw i h
  obtain ⟨hb, ha⟩ := cmdB_cmdA_encodeCmd h
  exact decodeCmd_eq_ok_iff.2 ⟨cmdOp_encodeCmd iw i, ha, hb⟩

/-- Settles O32: the operands fit since they are the word's fields, and the encoding has the same three fields as the word. -/
theorem encodeInvertsDecode : Obligations.EncodeInvertsDecode := by
  intro iw cmd i h
  obtain ⟨hop, ha, hb⟩ := decodeCmd_eq_ok_iff.1 h
  have hwf : i.wellFormed iw = true := Instr.wellFormed_iff.2 ⟨ha ▸ cmdA_lt iw cmd, hb ▸ cmdB_lt iw cmd⟩
  obtain ⟨hb', ha'⟩ := cmdB_cmdA_encodeCmd hwf
  exact ⟨cmd_ext ((cmdOp_encodeCmd iw i).trans hop.symm) (ha'.trans ha.symm) (hb'.trans hb.symm), hwf⟩

/-! ### The response word (R47, R101) -/

theorem Cause.ofCode_code (c : Cause) : Cause.ofCode c.code = some c := by
  cases c <;> rfl

/-- Three fields of 1, 3 and 32 bits side by side are what stands at the positions R47 gives them. -/
theorem responseWord_fields (fault : BitVec 1) (cause : BitVec 3) (data : Data) :
    (fault ++ cause ++ data).extractLsb' 35 1 = fault ∧ (fault ++ cause ++ data).extractLsb' 32 3 = cause ∧
    (fault ++ cause ++ data).extractLsb' 0 32 = data := by
  refine ⟨?_, ?_, BitVec.extractLsb'_append_eq_right⟩
  · exact (BitVec.extractLsb'_append_eq_of_le (by decide)).trans BitVec.extractLsb'_append_eq_left
  · exact (BitVec.extractLsb'_append_eq_of_le (by decide)).trans BitVec.extractLsb'_append_eq_right

theorem Rsp.toWire_fault_head (free : Data) (c : Cause) : ((Rsp.fault c).toWire free).extractLsb' 35 1 = 1#1 ∧
    ((Rsp.fault c).toWire free).extractLsb' 32 3 = c.code := by
  obtain ⟨hfault, hcause, -⟩ := responseWord_fields 1#1 c.code free
  exact ⟨hfault, hcause⟩

theorem Rsp.toWire_ok (free d : Data) : (Rsp.ok d).toWire free = d.setWidth 36 := by
  rw [BitVec.setWidth_eq_append (by decide)]
  rfl

/-- Settles O36: the word is laid out field by field. -/
theorem responseWordLayout : Obligations.ResponseWordLayout :=
  ⟨Rsp.toWire_ok, Rsp.toWire_fault_head⟩

/-- Reading a response word looks at the `fault` wire, and at the data wires only of an `Ok`. -/
theorem Rsp.ofWire_toWire (free : Data) (r : Rsp) : Rsp.ofWire (r.toWire free) = some r := by
  cases r with
  | ok d =>
    obtain ⟨hfault, hcause, hdata⟩ := responseWord_fields 0#1 0#3 d
    rw [Rsp.ofWire, Rsp.toWire, hfault, hcause, hdata]
    rfl
  | fault c =>
    obtain ⟨hfault, hcause⟩ := Rsp.toWire_fault_head free c
    rw [Rsp.ofWire, hfault, hcause, if_pos rfl, Cause.ofCode_code]
    rfl

end Sys2Proof

namespace Sys2Proof.Machine

theorem State.rspPort_of_rsp {s : State} {r : Rsp} (h : s.rsp = some r) :
    s.rspPort = r.toWire (Config.faultData s.history.length) := by
  rw [State.rspPort, h]

/-- Settles O37: the port carries the response's word with some value of the free wires. -/
theorem responseWordSpellsItsResponse : Obligations.ResponseWordSpellsItsResponse := by
  refine ⟨Rsp.ofWire_toWire, fun s r h => ?_⟩
  rw [State.rspPort_of_rsp h]
  exact Rsp.ofWire_toWire _ r

/-! ### One transaction (R43, R44, R49) -/

/-- Settles O45: the undisturbed word in flight is answered, by its instruction's meaning. -/
theorem stepRunsTheDecodedInstruction : Obligations.StepRunsTheDecodedInstruction := by
  intro s cmd i hf hq hd
  rw [step_of_quiet hf hq, runCommand_of_decode hd]

theorem runCommand_of_illegal {cmd : BitVec Config.commandBits} {e : DecodeError} (h : decode cmd = .error e)
    (s : State) : runCommand cmd s = .next (afterResponse s (.fault .illegalCmd)) := by
  rw [runCommand, h]
  rfl

/-- Both kinds of illegal word are rejected by the decoder (R43, R44). -/
theorem decode_illegal {cmd : BitVec Config.commandBits}
    (h : (cmdOp 32 cmd ≠ 1#4 ∧ cmdOp 32 cmd ≠ 2#4) ∨ (cmdOp 32 cmd = 1#4 ∧ cmdB 32 cmd ≠ 0)) :
    ∃ e, decode cmd = .error e := by
  obtain ⟨h1, h2⟩ | ⟨h1, hb⟩ := h
  · exact ⟨_, decodeCmd_reservedOp h1 h2⟩
  · exact ⟨_, decodeCmd_reservedField h1 hb⟩

/-- Settles O47: the word in flight decodes to an error, whatever the rest of the state is. -/
theorem illegalCommandIsAnsweredWithAFault : Obligations.IllegalCommandIsAnsweredWithAFault := by
  refine ⟨fun s cmd hf hq hill => ?_, by decide, by decide⟩
  obtain ⟨e, he⟩ := decode_illegal hill
  rw [step_of_quiet hf hq, runCommand_of_illegal he]

theorem step_command_of_idle {s : State} {cmd : BitVec Config.commandBits} {rest : List Input}
    (hi : s.inputs = .command cmd :: rest) (hf : s.inFlight = none) :
    step s = .next ({ s with inputs := rest }.accept cmd) := by
  simp only [step, turn, hi, inputTurn, hf]

/-- A command the host presents waits for the answer to the one in flight (R49 (a)). -/
theorem State.quiet_of_command {s : State} {cmd : BitVec Config.commandBits} {rest : List Input}
    (hi : s.inputs = .command cmd :: rest) : s.quiet = true := by
  rw [State.quiet, hi]

/-- Settles O48: an idle block accepts, a busy one is undisturbed and answers. -/
theorem oneCommandAtATime : Obligations.OneCommandAtATime :=
  fun _ _ _ hi => ⟨step_command_of_idle hi, fun _ hf => step_of_quiet hf (State.quiet_of_command hi)⟩

/-! ### The assembler: digits (R50) -/

theorem digitValue_of_isDigit {c : Char} (h : c.isDigit = true) :
    digitValue c = some (c.toNat - '0'.toNat) ∧ c.toNat - '0'.toNat < 10 := by
  obtain ⟨h0, h9⟩ := Char.isDigit_iff_toNat.1 h
  have hrange : '0' ≤ c ∧ c ≤ '9' := ⟨h0, h9⟩
  refine ⟨by rw [digitValue, if_pos hrange], ?_⟩
  change c.toNat ≤ 57 at h9
  change c.toNat - 48 < 10
  omega

/-- Decimal digits are read as the library reads them. -/
theorem digitsFrom_of_isDigit {cs : List Char} (h : ∀ c ∈ cs, c.isDigit = true) (acc : Nat) :
    digitsFrom 10 acc cs = some (Nat.ofDigitChars 10 cs acc) := by
  induction cs generalizing acc with
  | nil => rfl
  | cons c cs ih =>
    obtain ⟨hvalue, hlt⟩ := digitValue_of_isDigit (h c List.mem_cons_self)
    rw [digitsFrom, hvalue, Nat.ofDigitChars_cons, Nat.mul_comm 10 acc]
    exact (if_pos hlt).trans (ih (fun c' hc' => h c' (List.mem_cons_of_mem c hc')) _)

/-- Digits alone are no `0x` or `0b` numeral. -/
theorem numeral_of_isDigit {cs : List Char} (h : ∀ c ∈ cs, c.isDigit = true) : numeral cs = digits 10 cs := by
  unfold numeral
  split
  · exact absurd (h 'x' (by simp)) (by decide)
  · exact absurd (h 'b' (by simp)) (by decide)
  · rfl

theorem isDigit_toDigits (n : Nat) : ∀ c ∈ Nat.toDigits 10 n, c.isDigit = true :=
  fun _ hc => Nat.isDigit_of_mem_toDigits (by decide) (by decide) hc

theorem numeral_toDigits (n : Nat) : numeral (Nat.toDigits 10 n) = some n := by
  have hdigits : digits 10 (Nat.toDigits 10 n) = digitsFrom 10 0 (Nat.toDigits 10 n) := by
    obtain ⟨c, cs, hcs⟩ := List.exists_cons_of_ne_nil (Nat.toDigits_ne_nil (n := n) (b := 10))
    rw [hcs, digits]
    exact List.cons_ne_nil c cs
  rw [numeral_of_isDigit (isDigit_toDigits n), hdigits, digitsFrom_of_isDigit (isDigit_toDigits n),
    Nat.ofDigitChars_ten_toDigits]

/-! ### The assembler: tokens (R50) -/

theorem runToken_toDigits (n : Nat) : runToken (Nat.toDigits 10 n) = some [.num n] := by
  have hnum := numeral_toDigits n
  have hdigit := isDigit_toDigits n
  obtain ⟨c, cs, hcs⟩ := List.exists_cons_of_ne_nil (Nat.toDigits_ne_nil (n := n) (b := 10))
  rw [hcs] at hnum hdigit ⊢
  rw [runToken, if_pos (hdigit c List.mem_cons_self), hnum]
  rfl

theorem isNameChar_toDigits (n : Nat) : ∀ c ∈ Nat.toDigits 10 n, isNameChar c = true :=
  fun c hc => by simp [isNameChar, Char.isAlphanum, isDigit_toDigits n c hc]

/-- Name characters are gathered into the run. -/
theorem tokens_append_of_isNameChar {cs : List Char} (h : ∀ c ∈ cs, isNameChar c = true) (run rest : List Char) :
    tokens run (cs ++ rest) = tokens (cs.reverse ++ run) rest := by
  induction cs generalizing run with
  | nil => rfl
  | cons c cs ih =>
    have hc := h c List.mem_cons_self
    have hne : c ≠ ';' := by rintro rfl; exact absurd hc (by decide)
    rw [List.cons_append, tokens, if_neg hne, if_pos hc, ih fun c' hc' => h c' (List.mem_cons_of_mem c hc'),
      List.reverse_cons, List.append_assoc, List.singleton_append]

/-- A line of name characters alone is one token. -/
theorem tokens_of_isNameChar {cs : List Char} (h : ∀ c ∈ cs, isNameChar c = true) : tokens [] cs = runToken cs := by
  have hrun := tokens_append_of_isNameChar h [] []
  rw [List.append_nil, List.append_nil] at hrun
  rw [hrun, tokens, List.reverse_reverse]

/-- A run of name characters ends at a mark: its token, the mark's, and the tokens of the rest of the line. -/
theorem tokens_append_mark {cs rest : List Char} {m : Char} {before mark after : List Token}
    (h : ∀ c ∈ cs, isNameChar c = true) (hm : isNameChar m = false) (hsemi : m ≠ ';')
    (hbefore : runToken cs = some before) (hmark : markToken m = some mark) (hafter : tokens [] rest = some after) :
    tokens [] (cs ++ m :: rest) = some (before ++ mark ++ after) := by
  rw [tokens_append_of_isNameChar h, List.append_nil, tokens, if_neg hsemi, if_neg (by simp [hm]),
    List.reverse_reverse, hbefore, hmark, hafter]
  rfl

/-- A space ends a run and adds no token. -/
theorem tokens_append_space {cs rest : List Char} {before after : List Token} (h : ∀ c ∈ cs, isNameChar c = true)
    (hbefore : runToken cs = some before) (hafter : tokens [] rest = some after) :
    tokens [] (cs ++ ' ' :: rest) = some (before ++ after) := by
  simpa using tokens_append_mark (mark := []) h (by decide) (by decide) hbefore (by decide) hafter

theorem tokens_toDigits (n : Nat) : tokens [] (Nat.toDigits 10 n) = some [.num n] :=
  (tokens_of_isNameChar (isNameChar_toDigits n)).trans (runToken_toDigits n)

theorem tokens_printInstr_getbit (index : Nat) :
    tokens [] (printInstr (.getbit index)) = some [.word getbitName, .num index] :=
  tokens_append_space (before := [.word getbitName]) (List.all_eq_true.1 (by decide)) (by decide) (tokens_toDigits index)

theorem tokens_printInstr_getrange (start stop : Nat) :
    tokens [] (printInstr (.getrange start stop)) = some [.word getrangeName, .num start, .comma, .num stop] := by
  have hstop : tokens [] (' ' :: Nat.toDigits 10 stop) = some [.num stop] :=
    tokens_append_space (List.forall_mem_nil _) rfl (tokens_toDigits stop)
  have hops : tokens [] (Nat.toDigits 10 start ++ ',' :: ' ' :: Nat.toDigits 10 stop) =
      some [.num start, .comma, .num stop] :=
    tokens_append_mark (mark := [.comma]) (isNameChar_toDigits start) (by decide) (by decide)
      (runToken_toDigits start) (by decide) hstop
  rw [printInstr, List.append_assoc, List.cons_append]
  exact tokens_append_space (before := [.word getrangeName]) (List.all_eq_true.1 (by decide)) (by decide) hops

/-- The mnemonic and its operands are the tokens of the command (R50). -/
theorem parseTokens_printInstr (i : Instr) : (tokens [] (printInstr i)).bind parseTokens = some (.command i) := by
  cases i with
  | getbit index => rw [tokens_printInstr_getbit, Option.bind_some, parseTokens, if_pos rfl]
  | getrange start stop => rw [tokens_printInstr_getrange, Option.bind_some, parseTokens, if_pos rfl]

/-- Settles O39: the tokens of the printed line spell the command, which a command word can hold. -/
theorem printedInstructionReadsBack : Obligations.PrintedInstructionReadsBack := by
  intro i h
  rw [parseLine, parseTokens_printInstr]
  exact if_pos h

end Sys2Proof.Machine
end

section
/-! PROOFS of the family of `40_bit_address_decoder.md`: the byte index and the bit offset of a bit index (R60, R61), and the bounds
tests of a bit and of a range's end (R62, R64). -/

namespace Sys2Proof.Machine

/-! ### The byte index (R60) -/

theorem byteIndex_lt_iff {b n : Nat} : byteIndex b < n ↔ b < 8 * n := by
  rw [byteIndex, Nat.div_lt_iff_lt_mul (by decide), Nat.mul_comm]

/-- The wire selection `b[IW-1:3]`: dropping three bits divides by 8, and nothing stands above the bits that are kept. -/
theorem toNat_slice_eq_byteIndex {iw : Nat} (b : BitVec iw) (h : 3 ≤ iw) :
    (b.extractLsb' 3 (iw - 3)).toNat = byteIndex b.toNat := by
  have hfits : byteIndex b.toNat < 2 ^ (iw - 3) :=
    byteIndex_lt_iff.2 (b.isLt.trans_eq (pow_mul_pow_sub 2 h).symm)
  rw [BitVec.extractLsb'_toNat, Nat.shiftRight_eq_div_pow]
  exact Nat.mod_eq_of_lt hfits

/-- The largest bit index lies in the largest byte that exists. -/
theorem byteIndex_largest {iw : Nat} (h : 3 ≤ iw) : byteIndex (2 ^ iw - 1) = 2 ^ (iw - 3) - 1 := by
  have hpow : 2 ^ 3 * 2 ^ (iw - 3) = 2 ^ iw := pow_mul_pow_sub 2 h
  rw [byteIndex, Config.byteBits]
  omega

/-- Settles O1: the slice drops the three offset bits; the corner cases are computed. -/
theorem byteIndexIsQuotientAndSlice : Obligations.ByteIndexIsQuotientAndSlice :=
  ⟨fun _ b h => ⟨rfl, (toNat_slice_eq_byteIndex b h).symm⟩, rfl, rfl, rfl, rfl, fun _ => byteIndex_largest⟩

/-! ### The bit offset (R61) -/

theorem bitOff_le_seven (b : Nat) : bitOff b ≤ 7 :=
  Nat.le_of_lt_succ (Nat.mod_lt b (by decide))

/-- The wire selection `b[2:0]`. -/
theorem toNat_slice_eq_bitOff {iw : Nat} (b : BitVec iw) : (b.extractLsb' 0 3).toNat = bitOff b.toNat := by
  rw [BitVec.extractLsb'_toNat, Nat.shiftRight_zero]
  rfl

/-- As a 3-bit circuit, `7 - off` is the bitwise complement of `off`. -/
theorem toNat_not_slice_eq_seven_sub_bitOff {iw : Nat} (b : BitVec iw) :
    (~~~ (b.extractLsb' 0 3)).toNat = 7 - bitOff b.toNat := by
  rw [BitVec.toNat_not, toNat_slice_eq_bitOff]

/-- Offset 0 selects the most significant bit of a byte. -/
theorem selectBit_zero (byte : Byte) : selectBit byte 0 = byte.msb :=
  (BitVec.msb_eq_getLsbD_last byte).symm

/-- Settles O2: the offset is the slice `b[2:0]`, and its complement is the LSB-0 position of the bit it selects. -/
theorem bitOffsetIsRemainderFromMsb : Obligations.BitOffsetIsRemainderFromMsb :=
  ⟨fun _ b _ => ⟨rfl, (toNat_slice_eq_bitOff b).symm, (toNat_not_slice_eq_seven_sub_bitOff b).symm⟩,
    fun _ b => ⟨bitOff_le_seven b, rfl⟩, fun byte => ⟨selectBit_zero byte, rfl⟩, rfl, rfl, rfl, rfl⟩

/-! ### The bounds tests (R62, R64) -/

theorem inBounds_iff_div {b len : Nat} : inBounds b len = true ↔ b / 8 < len := decide_eq_true_iff

theorem inBounds_eq_false_iff {b len : Nat} : inBounds b len = false ↔ 8 * len ≤ b := by
  rw [← Bool.not_eq_true, inBounds_iff, Nat.not_lt]

/-- The circuit's test: the slice `b[IW-1:3]`, zero-extended, compared with the `IW`-bit length. -/
theorem inBounds_iff_slice {iw : Nat} (b len : BitVec iw) (h : 3 ≤ iw) :
    inBounds b.toNat len.toNat = true ↔ ((b.extractLsb' 3 (iw - 3)).setWidth iw).toNat < len.toNat := by
  rw [BitVec.toNat_setWidth_of_le (Nat.sub_le iw 3), toNat_slice_eq_byteIndex b h]
  exact inBounds_iff_div

/-- Settles O3: each corner case is `b < 8*L` decided at its index. -/
theorem inBoundsMeansInsideTheStream : Obligations.InBoundsMeansInsideTheStream :=
  ⟨fun _ _ => ⟨inBounds_iff_div, inBounds_iff⟩, fun _ => inBounds_iff_slice,
    fun b => inBounds_eq_false_iff.2 (Nat.zero_le b), fun _ h => inBounds_iff.2 (by omega),
    fun _ => inBounds_eq_false_iff.2 le_rfl, rfl, rfl⟩

theorem rangeEndOk_iff_div {stop len : Nat} : rangeEndOk stop len = true ↔ stop / 8 ≤ len := decide_eq_true_iff

/-- Settles O4: `8*L + 7` is the last bound whose byte index is at most `L`. -/
theorem rangeEndTestHasSevenBitsOfSlack : Obligations.RangeEndTestHasSevenBitsOfSlack :=
  fun _ _ => ⟨rangeEndOk_iff_div, rangeEndOk_iff⟩

end Sys2Proof.Machine
end

section
/-! PROOFS of the family of `41_get_bit.md`: what `getbit` answers in bounds (R70), beyond `8*L` (R72), and that the eight bits of a
byte spell it (R71). -/

namespace Sys2Proof.Machine

/-! ### What `getbit` answers (R70, R72) -/

theorem exec_getbit (index : Nat) (s : State) : exec (.getbit index) s = execGetbit index s := rfl

theorem State.deliver_some (d : Data) (s : State) : s.deliver (some d) = .next (s.answer (.ok d)) := rfl

theorem State.bitAt_of_read {s : State} {index : Nat} {byte : Byte} (hlt : byteIndex index < s.len)
    (hans : s.memAnswers = true) (hread : s.mem.read (byteIndex index) = some byte) :
    s.bitAt index = some (selectBit byte (bitOff index)) :=
  State.bitAt_eq_some.2 ⟨byte, State.readByte_eq_some.2 ⟨hlt, hans, hread⟩, rfl⟩

/-- In bounds, with its byte there to read, `getbit` completes with the bit that its offset selects. -/
theorem exec_getbit_of_read {s : State} {index : Nat} {byte : Byte} (hlt : byteIndex index < s.len)
    (hans : s.memAnswers = true) (hread : s.mem.read (byteIndex index) = some byte) :
    exec (.getbit index) s = .next (afterResponse s (.ok (boolData (selectBit byte (bitOff index))))) := by
  rcases execGetbit_cases index s with ⟨hout, -⟩ | ⟨-, hdeliver⟩
  · exact absurd (byteIndex_lt_iff.1 hlt) (Nat.not_lt.2 hout)
  · rw [exec_getbit, hdeliver, State.bitAt_of_read hlt hans hread, Option.map_some, State.deliver_some,
      State.answer_eq_afterResponse]

/-- R22's formula as the 32-bit result itself. -/
theorem boolData_selectBit (byte : Byte) (off : Nat) :
    boolData (selectBit byte off) = BitVec.ofNat 32 (byte.toNat / 2 ^ (7 - off) % 2) := by
  rw [← boolData_selectBit_toNat, BitVec.ofNat_toNat, BitVec.setWidth_eq]

/-- Settles O7: the bit selected by the offset has the value of R22's formula. -/
theorem getbitReturnsTheStreamBit : Obligations.GetbitReturnsTheStreamBit := by
  intro s index byte hlt hans hread
  have hexec := exec_getbit_of_read (index := index) hlt hans hread
  rwa [boolData_selectBit] at hexec

/-- Settles O8: the bounds test comes before the read. -/
theorem getbitOutOfBoundsFaults : Obligations.GetbitOutOfBoundsFaults := by
  intro s index hout
  rcases execGetbit_cases index s with ⟨-, hfault⟩ | ⟨hlt, -⟩
  · exact hfault
  · exact absurd hlt (Nat.not_lt.2 hout)

/-! ### The eight bits of a byte (R71) -/

/-- Bit `j` of byte `k`, most significant bit first, is stream bit `8*k + j` (R60, R61). -/
theorem byteIndex_eight_mul_add (k : Nat) {j : Nat} (hj : j < 8) : byteIndex (8 * k + j) = k := by
  rw [byteIndex, Config.byteBits, Nat.mul_add_div (by decide), Nat.div_eq_of_lt hj, Nat.add_zero]

theorem bitOff_eight_mul_add (k : Nat) {j : Nat} (hj : j < 8) : bitOff (8 * k + j) = j :=
  (Nat.mul_add_mod 8 k j).trans (Nat.mod_eq_of_lt hj)

theorem exec_getbit_of_byte {s : State} {k j : Nat} {byte : Byte} (hj : j < 8) (hlt : k < s.len)
    (hans : s.memAnswers = true) (hread : s.mem.read k = some byte) :
    exec (.getbit (8 * k + j)) s = .next (afterResponse s (.ok (boolData (selectBit byte j)))) := by
  have hk := byteIndex_eight_mul_add k hj
  have hexec := exec_getbit_of_read (hk.trans_lt hlt) hans ((congrArg s.mem.read hk).trans hread)
  rwa [bitOff_eight_mul_add k hj] at hexec

theorem boolData_selectBit_shift (byte : Byte) (off : Nat) :
    (boolData (selectBit byte off)).toNat = (byte.toNat >>> (7 - off)) % 2 := by
  rw [boolData_selectBit_toNat, Nat.shiftRight_eq_div_pow]

/-- Nothing stands above the most significant bit of a byte. -/
theorem boolData_selectBit_first (byte : Byte) : (boolData (selectBit byte 0)).toNat = byte.toNat >>> 7 := by
  have hone : byte.toNat / 2 ^ 7 < 2 := Nat.div_lt_of_lt_mul byte.isLt
  rw [boolData_selectBit_toNat, Nat.shiftRight_eq_div_pow]
  exact Nat.mod_eq_of_lt hone

/-- The low `n` bits of a number, each at its weight, add up to what is left of it below `2^n`. -/
theorem sum_bits_eq_mod_two_pow (v n : Nat) : ∑ i ∈ Finset.range n, v / 2 ^ i % 2 * 2 ^ i = v % 2 ^ n := by
  induction n with
  | zero => rw [Finset.sum_range_zero, pow_zero, Nat.mod_one]
  | succ n ih => rw [Finset.sum_range_succ, ih, Nat.mod_pow_succ, Nat.mul_comm (2 ^ n)]

/-- Offsets count from the most significant bit and weights from the least, so the sum is taken in reverse. -/
theorem sum_boolData_selectBit (byte : Byte) :
    ∑ j ∈ Finset.range 8, (boolData (selectBit byte j)).toNat <<< (7 - j) = byte.toNat := by
  calc ∑ j ∈ Finset.range 8, (boolData (selectBit byte j)).toNat <<< (7 - j)
      = ∑ j ∈ Finset.range 8, byte.toNat / 2 ^ (8 - 1 - j) % 2 * 2 ^ (8 - 1 - j) :=
        Finset.sum_congr rfl fun j _ => by rw [boolData_selectBit_toNat, Nat.shiftLeft_eq]
    _ = ∑ i ∈ Finset.range 8, byte.toNat / 2 ^ i % 2 * 2 ^ i :=
        Finset.sum_range_reflect (fun i => byte.toNat / 2 ^ i % 2 * 2 ^ i) 8
    _ = byte.toNat := (sum_bits_eq_mod_two_pow byte.toNat 8).trans (Nat.mod_eq_of_lt byte.isLt)

/-- Settles O9: the datum of `getbit 8*k + j` is the bit of byte `k` at offset `j`. -/
theorem getbitsOfAByteRebuildIt : Obligations.GetbitsOfAByteRebuildIt :=
  fun _ _ byte hlt hans hread => ⟨fun j => boolData (selectBit byte j),
    fun _ hj => exec_getbit_of_byte hj hlt hans hread, fun j _ => boolData_selectBit_shift byte j,
    boolData_selectBit_first byte, boolData_selectBit_shift byte 7, sum_boolData_selectBit byte⟩

end Sys2Proof.Machine
end

section
/-! PROOFS of the family of `42_get_bit_range.md`: the value of a valid range is the sum of its bits (R76), the operands for which
there is one (R78, R79, R82, R83), and what follows for parts, fields, other sequences and shifts of a range (R80, R81). -/

namespace Sys2Proof.Machine

/-! ### The bits of a range (R63) -/

/-- Every bit of the range can be read: it lies in a byte below `L` that is there, and reads are answered. -/
def State.hasBits (s : State) (start stop : Nat) : Prop :=
  ∀ i, start ≤ i → i < stop → ∃ t, s.bitAt i = some t

theorem State.hasBits.mono {s : State} {start stop a b : Nat} (h : s.hasBits start stop) (ha : start ≤ a) (hb : b ≤ stop) :
    s.hasBits a b :=
  fun i hi hi' => h i (ha.trans hi) (hi'.trans_le hb)

theorem State.hasBits_self (s : State) (start : Nat) : s.hasBits start start :=
  fun _ hi hi' => absurd hi' (Nat.not_lt.2 hi)

theorem State.suppliesRange.hasBits {s : State} {start stop : Nat} (h : s.suppliesRange start stop) (hs : stop ≤ 8 * s.len) :
    s.hasBits start stop := by
  obtain ⟨hans, hread⟩ := h
  intro i hi hi'
  obtain ⟨byte, hbyte⟩ := hread i hi hi'
  exact ⟨_, State.bitAt_of_read (byteIndex_lt_iff.2 (by omega)) hans hbyte⟩

/-- A byte that reads gives each of its eight stream bits a value. -/
theorem State.hasBits_of_readByte {s : State} {k : Nat} {byte : Byte} (h : s.readByte k = some byte) :
    s.hasBits (8 * k) (8 * k + 8) := by
  intro i hi hi'
  obtain ⟨j, rfl⟩ := Nat.exists_eq_add_of_le hi
  exact ⟨_, State.bitAt_eq_some.2 ⟨byte, by rwa [byteIndex_eight_mul_add k (by omega)], rfl⟩⟩

theorem State.streamBit_of_read {s : State} {i : Nat} {byte : Byte} (h : s.mem.read (i / 8) = some byte) :
    s.streamBit i = (boolData (selectBit byte (bitOff i))).toNat := by
  rw [boolData_selectBit_toNat, State.streamBit, h]
  rfl

/-- The bit that a read gives is R22's. -/
theorem State.boolData_of_bitAt {s : State} {i : Nat} {t : Bool} (h : s.bitAt i = some t) :
    (boolData t).toNat = s.streamBit i := by
  obtain ⟨byte, hbyte, rfl⟩ := State.bitAt_eq_some.1 h
  obtain ⟨-, -, hread⟩ := State.readByte_eq_some.1 hbyte
  exact (State.streamBit_of_read hread).symm

theorem State.streamBit_lt (s : State) (i : Nat) : s.streamBit i < 2 := by
  unfold State.streamBit
  split
  · exact Nat.mod_lt _ (by decide)
  · decide

/-! ### The sum of R76 -/

@[simp] theorem State.rangeSum_self (s : State) (start : Nat) : s.rangeSum start start = 0 := by
  simp [State.rangeSum]

/-- One more bit at the end doubles the weights of the others. -/
theorem State.rangeSum_succ (s : State) {start stop : Nat} (h : start ≤ stop) :
    s.rangeSum start (stop + 1) = 2 * s.rangeSum start stop + s.streamBit stop := by
  have hweights : ∀ i ∈ Finset.Ico start stop,
      s.streamBit i * 2 ^ (stop + 1 - 1 - i) = 2 * (s.streamBit i * 2 ^ (stop - 1 - i)) := by
    intro i hi
    have hlt := (Finset.mem_Ico.1 hi).2
    rw [show stop + 1 - 1 - i = stop - 1 - i + 1 by omega, Nat.pow_succ]
    ring
  rw [State.rangeSum, Finset.sum_Ico_succ_top h, Finset.sum_congr rfl hweights, ← Finset.mul_sum]
  simp [State.rangeSum]

/-- R81: `len` bits make a number below `2^len`. -/
theorem State.rangeSum_lt (s : State) {start stop : Nat} (h : start ≤ stop) : s.rangeSum start stop < 2 ^ (stop - start) := by
  induction stop, h using Nat.le_induction with
  | base => simp
  | succ stop h ih =>
    have hbit := s.streamBit_lt stop
    rw [State.rangeSum_succ s h, Nat.sub_add_comm h, Nat.pow_succ]
    omega

/-- The sum of a valid range fits the 32-bit result. -/
theorem State.toNat_rangeSum (s : State) {start stop : Nat} (hle : start ≤ stop) (hlen : stop - start ≤ 31) :
    (BitVec.ofNat 32 (s.rangeSum start stop)).toNat = s.rangeSum start stop := by
  have hfits : 2 ^ (stop - start) ≤ 2 ^ 31 := Nat.pow_le_pow_right (by decide) hlen
  exact Nat.mod_eq_of_lt ((s.rangeSum_lt hle).trans_le (hfits.trans (by decide)))

/-- R80: the sums of two adjacent parts recombine. -/
theorem State.rangeSum_split (s : State) {start mid stop : Nat} (h1 : start ≤ mid) (h2 : mid ≤ stop) :
    s.rangeSum start stop = 2 ^ (stop - mid) * s.rangeSum start mid + s.rangeSum mid stop := by
  induction stop, h2 using Nat.le_induction with
  | base => simp
  | succ stop h2 ih =>
    rw [State.rangeSum_succ s (h1.trans h2), State.rangeSum_succ s h2, ih, Nat.sub_add_comm h2, Nat.pow_succ]
    ring

/-- R76: the weight of stream bit `start + j` is `2^(len - 1 - j)`, so there it stands. -/
theorem State.rangeSum_digit (s : State) {start stop j : Nat} (hj : j < stop - start) :
    s.rangeSum start stop / 2 ^ (stop - start - 1 - j) % 2 = s.streamBit (start + j) := by
  have hlow := s.rangeSum_lt (start := start + j + 1) (stop := stop) (by omega)
  rw [State.rangeSum_split s (mid := start + j + 1) (by omega) (by omega),
    show stop - start - 1 - j = stop - (start + j + 1) by omega, Nat.mul_add_div (Nat.two_pow_pos _),
    Nat.div_eq_of_lt hlow, State.rangeSum_succ s (Nat.le_add_right start j)]
  have hbit := s.streamBit_lt (start + j)
  omega

/-- The eight bits of a byte sum up to it (R71). -/
theorem State.rangeSum_byte {s : State} {k : Nat} {byte : Byte} (h : s.mem.read k = some byte) :
    s.rangeSum (8 * k) (8 * k + 8) = byte.toNat := by
  rw [State.rangeSum, Finset.sum_Ico_eq_sum_range, Nat.add_sub_cancel_left, ← sum_boolData_selectBit byte]
  refine Finset.sum_congr rfl fun j hj => ?_
  have hj := Finset.mem_range.1 hj
  have hread : s.mem.read ((8 * k + j) / 8) = some byte := by rwa [show (8 * k + j) / 8 = k by omega]
  rw [State.streamBit_of_read hread, bitOff_eight_mul_add k hj, Nat.shiftLeft_eq,
    show 8 * k + 8 - 1 - (8 * k + j) = 7 - j by omega]

/-- R23, R81: bytes that read as a big-endian number are the sum of their bits. -/
theorem State.readBytes_eq_rangeSum {s : State} {k n v : Nat} (h : s.readBytes k n = some v) :
    s.hasBits (8 * k) (8 * (k + n)) ∧ v = s.rangeSum (8 * k) (8 * (k + n)) := by
  induction n generalizing v with
  | zero =>
    obtain rfl : 0 = v := Option.some.inj h
    exact ⟨s.hasBits_self _, (s.rangeSum_self _).symm⟩
  | succ n ih =>
    simp only [State.readBytes, Option.bind_eq_bind, Option.pure_def, Option.bind_eq_some_iff, Option.some.injEq] at h
    obtain ⟨high, hhigh, low, hlow, rfl⟩ := h
    obtain ⟨hbits, rfl⟩ := ih hhigh
    obtain ⟨-, -, hread⟩ := State.readByte_eq_some.1 hlow
    refine ⟨fun i hi hi' => ?_, ?_⟩
    · rcases Nat.lt_or_ge i (8 * (k + n)) with hlt | hge
      · exact hbits i hi hlt
      · exact State.hasBits_of_readByte hlow i hge (by omega)
    · rw [show 8 * (k + (n + 1)) = 8 * (k + n) + 8 by omega,
        State.rangeSum_split s (mid := 8 * (k + n)) (stop := 8 * (k + n) + 8) (by omega) (by omega),
        State.rangeSum_byte hread, Nat.add_sub_cancel_left, Nat.mul_comm]

/-! ### The iteration of R75 without its bounds tests -/

/-- What the iteration of R75 accumulates over the range, when no bounds test fails. -/
def State.rangeData (s : State) (start stop : Nat) : Option Data :=
  (List.range' start (stop - start)).foldl (fun acc i => shiftIn acc (s.bitAt i)) (some 0#32)

theorem rangeLoop_of_inBounds (s : State) {n i : Nat} (acc : Option Data) (h : 0 < n → i + n ≤ 8 * s.len) :
    rangeLoop s n i acc = .ok ((List.range' i n).foldl (fun acc j => shiftIn acc (s.bitAt j)) acc) := by
  induction n generalizing i acc with
  | zero => rfl
  | succ n ih =>
    rw [rangeLoop, if_pos (inBounds_iff.2 (by omega)), ih _ (by omega)]
    rfl

theorem State.rangeData_of_le (s : State) {start stop : Nat} (h : stop ≤ start) : s.rangeData start stop = some 0#32 := by
  rw [State.rangeData, Nat.sub_eq_zero_of_le h]
  rfl

@[simp] theorem State.rangeData_self (s : State) (start : Nat) : s.rangeData start start = some 0#32 :=
  s.rangeData_of_le le_rfl

theorem State.rangeData_succ (s : State) {start stop : Nat} (h : start ≤ stop) :
    s.rangeData start (stop + 1) = shiftIn (s.rangeData start stop) (s.bitAt stop) := by
  rw [State.rangeData, Nat.sub_add_comm h, List.range'_concat, List.foldl_append, Nat.one_mul, Nat.add_sub_cancel' h]
  rfl

/-- R76: the iteration, doubling and adding, accumulates the sum. -/
theorem State.rangeData_of_hasBits {s : State} {start stop : Nat} (h : start ≤ stop) (hlen : stop - start ≤ 31)
    (hbits : s.hasBits start stop) : s.rangeData start stop = some (BitVec.ofNat 32 (s.rangeSum start stop)) := by
  induction stop, h using Nat.le_induction with
  | base => simp
  | succ stop h ih =>
    obtain ⟨t, ht⟩ := hbits stop h (Nat.lt_succ_self stop)
    have hsum := s.rangeSum_lt h
    have hfits : 2 ^ (stop - start) ≤ 2 ^ 30 := Nat.pow_le_pow_right (by decide) (by omega)
    have hacc := s.toNat_rangeSum h (by omega)
    have hvalue := shiftIn_toNat (a := BitVec.ofNat 32 (s.rangeSum start stop)) t (by omega)
    rw [hacc, State.boolData_of_bitAt ht, ← State.rangeSum_succ s h] at hvalue
    rw [State.rangeData_succ s h, ih (by omega) (hbits.mono le_rfl (Nat.le_succ stop)), ht, shiftIn_some, ← hvalue,
      BitVec.ofNat_toNat, BitVec.setWidth_eq]

/-- Bits that are alike, `e` positions on, accumulate to the same data. -/
theorem State.rangeData_shift {s t : State} {start stop e : Nat}
    (h : ∀ i, start ≤ i → i < stop → t.bitAt (i + e) = s.bitAt i) :
    t.rangeData (start + e) (stop + e) = s.rangeData start stop := by
  rcases Nat.le_total stop start with hle | hle
  · rw [State.rangeData_of_le s hle, State.rangeData_of_le t (Nat.add_le_add_right hle e)]
  · induction stop, hle using Nat.le_induction with
    | base => simp
    | succ stop hle ih =>
      rw [Nat.add_right_comm, State.rangeData_succ t (by omega), State.rangeData_succ s hle,
        h stop hle (Nat.lt_succ_self stop), ih fun i hi hi' => h i hi (by omega)]

/-- R96: over one bit the iteration is the bit. -/
theorem State.rangeData_one (s : State) (i : Nat) : s.rangeData i (i + 1) = (s.bitAt i).map boolData := by
  rw [State.rangeData_succ s le_rfl, State.rangeData_self]
  cases s.bitAt i with
  | none => rfl
  | some t => simp

/-! ### What `getrange` answers (R75, R78, R103) -/

theorem exec_getrange (start stop : Nat) (s : State) : exec (.getrange start stop) s = execGetrange start stop s := rfl

/-- The cause of a range that is not valid, in the order of R103. -/
def rangeCause (start stop len : Nat) : Cause :=
  if len < stop / 8 then .rangeEndOob
  else if stop < start then .rangeReversed
  else if 32 ≤ stop - start then .rangeTooWide
  else .rangeBitOob

theorem rangeValid_empty_iff {at_ len : Nat} : rangeValid at_ at_ len ↔ at_ / 8 ≤ len := by
  simp [rangeValid]

/-- R80: a part of a valid range is valid. -/
theorem rangeValid.part {start stop len a b : Nat} (h : rangeValid start stop len) (ha : start ≤ a) (hab : a ≤ b)
    (hb : b ≤ stop) : rangeValid a b len := by
  unfold rangeValid at *
  omega

theorem rangeValid.stop_le {start stop len : Nat} (h : rangeValid start stop len) (hlt : start < stop) : stop ≤ 8 * len := by
  obtain ⟨-, -, hin, -⟩ := h
  exact hin hlt

/-- A valid range delivers what the iteration accumulates. -/
theorem exec_getrange_of_valid {s : State} {start stop : Nat} (h : rangeValid start stop s.len) :
    exec (.getrange start stop) s = s.deliver (s.rangeData start stop) := by
  obtain ⟨hle, hlen, hin, hempty⟩ := h
  rcases execGetrange_cases start stop s with
    ⟨hend, -⟩ | ⟨-, hrev, -⟩ | ⟨-, hwide, -⟩ | ⟨-, hlt, -, hout, -⟩ | ⟨-, -, -, -, data, hloop, hexec⟩
  · omega
  · omega
  · omega
  · exact absurd (hin hlt) (Nat.not_le.2 hout)
  · rw [rangeLoop_of_inBounds s _ (by omega)] at hloop
    rw [exec_getrange, hexec, ← Except.ok.inj hloop]
    rfl

/-- Any other range faults, whatever memory holds (R100). -/
theorem exec_getrange_of_not_valid {s : State} {start stop : Nat} (h : ¬ rangeValid start stop s.len) :
    exec (.getrange start stop) s = .next (afterResponse s (.fault (rangeCause start stop s.len))) := by
  rw [exec_getrange, ← State.answer_eq_afterResponse]
  rcases execGetrange_cases start stop s with
    ⟨hend, hexec⟩ | ⟨hend, hrev, hexec⟩ | ⟨hend, hwide, hexec⟩ | ⟨hend, hlt, hlen, -, hexec⟩ | ⟨hend, hle, hlen, hin, -⟩
  · rw [hexec, rangeCause, if_pos (by omega)]
  · rw [hexec, rangeCause, if_neg (by omega), if_pos hrev]
  · rw [hexec, rangeCause, if_neg (by omega), if_neg (by omega), if_pos (by omega)]
  · rw [hexec, rangeCause, if_neg (by omega), if_neg (by omega), if_neg (by omega)]
  · exact absurd ⟨hle, by omega, hin, fun _ => by omega⟩ h

/-- R76: a valid range whose bits can be read completes with their sum. -/
theorem exec_getrange_of_hasBits {s : State} {start stop : Nat} (h : rangeValid start stop s.len)
    (hbits : s.hasBits start stop) :
    exec (.getrange start stop) s = .next (afterResponse s (.ok (BitVec.ofNat 32 (s.rangeSum start stop)))) := by
  have ⟨hle, hlen, _⟩ := h
  rw [exec_getrange_of_valid h, State.rangeData_of_hasBits hle hlen hbits, State.deliver_some,
    State.answer_eq_afterResponse]

/-- R78, R81: a range that returns a value is valid, has all its bits, and returns their sum. -/
theorem exec_getrange_ok_iff {s : State} {start stop : Nat} {d : Data} :
    exec (.getrange start stop) s = .next (afterResponse s (.ok d)) ↔
      rangeValid start stop s.len ∧ s.hasBits start stop ∧ d = BitVec.ofNat 32 (s.rangeSum start stop) := by
  constructor
  · intro h
    have hbits : s.hasBits start stop := (bitAt_of_execGetrange h).2
    by_cases hvalid : rangeValid start stop s.len
    · rw [exec_getrange_of_hasBits hvalid hbits] at h
      exact ⟨hvalid, hbits, (Rsp.ok.inj (State.answer_inj (Host.Outcome.next.inj h))).symm⟩
    · rw [exec_getrange_of_not_valid hvalid] at h
      exact absurd h State.raised_ne_ok
  · rintro ⟨hvalid, hbits, rfl⟩
    exact exec_getrange_of_hasBits hvalid hbits

theorem State.supplied.hasBits {s : State} {start stop : Nat} (h : s.supplied) (hvalid : rangeValid start stop s.len) :
    s.hasBits start stop := by
  intro i hi hi'
  have hs := hvalid.stop_le (hi.trans_lt hi')
  exact (h.range start hs).hasBits hs i hi hi'

/-! ### The value of a range (R76, R78, R79, R81) -/

/-- Settles O10: the data is the sum, whose binary digits are the bits of the range. -/
theorem getrangeReturnsTheSumOfItsBits : Obligations.GetrangeReturnsTheSumOfItsBits := by
  intro s start stop hlt hlen hs hsupplied
  have hvalid : rangeValid start stop s.len := ⟨hlt.le, hlen, fun _ => hs, fun h => absurd h hlt.ne⟩
  have hsum := s.toNat_rangeSum hlt.le hlen
  refine ⟨_, exec_getrange_of_hasBits hvalid (hsupplied.hasBits hs), hsum, fun j hj => ?_, fun j hj => ?_⟩
  · rw [BitVec.getLsbD, hsum, Nat.toNat_testBit, State.rangeSum_digit s hj]
  · rw [BitVec.getLsbD, hsum]
    exact Nat.testBit_lt_two_pow ((s.rangeSum_lt hlt.le).trans_le (Nat.pow_le_pow_right (by decide) hj))

/-- Settles O12: a supplied sequence has every bit of a valid range, and any other range faults. -/
theorem getrangeValidExactly : Obligations.GetrangeValidExactly :=
  fun _ _ _ hsupplied => ⟨fun hvalid => ⟨_, exec_getrange_of_hasBits hvalid (hsupplied.hasBits hvalid)⟩,
    fun hinvalid => ⟨_, exec_getrange_of_not_valid hinvalid⟩⟩

/-- Settles O14: the value is the sum of `len` bits of a valid range. -/
theorem rangeResultFitsItsLength : Obligations.RangeResultFitsItsLength := by
  intro s start stop d h
  obtain ⟨⟨hle, hlen, -⟩, -, rfl⟩ := exec_getrange_ok_iff.1 h
  rw [s.toNat_rangeSum hle hlen]
  exact ⟨s.rangeSum_lt hle, hlen⟩

/-- Settles O11: an empty range has no bit to read, and its sum is empty. -/
theorem emptyRangeReturnsZero : Obligations.EmptyRangeReturnsZero := by
  intro s at_
  constructor
  · intro hin
    have hexec := exec_getrange_of_hasBits (rangeValid_empty_iff.2 hin) (s.hasBits_self at_)
    rwa [State.rangeSum_self] at hexec
  · intro hout
    rw [exec_getrange_of_not_valid (fun h => Nat.not_lt.2 (rangeValid_empty_iff.1 h) hout), rangeCause, if_pos hout]

/-! ### Ranges that return no value (R82, R83) -/

/-- Settles O19: of the causes of R103 only the end out of bounds comes before the reversal. -/
theorem reversedRangeFaults : Obligations.ReversedRangeFaults := by
  intro s start stop hrev
  have hinvalid : ¬ rangeValid start stop s.len := fun ⟨hle, _⟩ => Nat.not_lt.2 hle hrev
  rw [exec_getrange_of_not_valid hinvalid, rangeCause, if_pos hrev]

/-- Settles O20: 32 bits fail the width bound of a valid range, 31 bits meet it. -/
theorem rangeOf32BitsFaults : Obligations.RangeOf32BitsFaults := by
  intro s start stop
  constructor
  · intro hwide
    have hinvalid : ¬ rangeValid start stop s.len := fun ⟨_, hlen, _⟩ => by omega
    rw [exec_getrange_of_not_valid hinvalid, rangeCause, if_neg (show ¬ stop < start by omega),
      if_pos (show 32 ≤ stop - start by omega)]
  · rintro rfl hs hsupplied
    exact ⟨_, exec_getrange_of_hasBits ⟨by omega, by omega, fun _ => hs, fun h => by omega⟩ (hsupplied.hasBits hs)⟩

/-! ### Parts of a range (R80, R96) -/

theorem exec_getbit_of_bitAt {s : State} {i : Nat} {t : Bool} (h : s.bitAt i = some t) :
    exec (.getbit i) s = .next (afterResponse s (.ok (boolData t))) := by
  obtain ⟨byte, hbyte, rfl⟩ := State.bitAt_eq_some.1 h
  obtain ⟨hlt, hans, hread⟩ := State.readByte_eq_some.1 hbyte
  exact exec_getbit_of_read hlt hans hread

theorem State.boolData_eq_streamBit {s : State} {i : Nat} {t : Bool} (h : s.bitAt i = some t) :
    boolData t = BitVec.ofNat 32 (s.streamBit i) := by
  rw [← State.boolData_of_bitAt h, BitVec.ofNat_toNat, BitVec.setWidth_eq]

/-- Appending the `n` bits of `lo` below `hi` is what the shift and the or do. -/
theorem ofNat_shiftLeft_or (hi : Nat) {lo n : Nat} (h : lo < 2 ^ n) :
    (BitVec.ofNat 32 hi <<< n) ||| BitVec.ofNat 32 lo = BitVec.ofNat 32 (2 ^ n * hi + lo) := by
  have hshift : BitVec.ofNat 32 hi <<< n = BitVec.ofNat 32 (2 ^ n * hi) := by
    apply BitVec.eq_of_toNat_eq
    rw [BitVec.toNat_shiftLeft, BitVec.toNat_ofNat, BitVec.toNat_ofNat, Nat.shiftLeft_eq, Nat.mod_mul_mod, Nat.mul_comm]
  rw [Nat.two_pow_add_eq_or_of_lt h, BitVec.ofNat_or, hshift]

/-- Settles O13: both parts are valid and readable like the whole, and their sums recombine. -/
theorem rangeDecomposes : Obligations.RangeDecomposes := by
  intro s start mid stop hsupplied h1 h2 hvalid
  have hhi := hvalid.part le_rfl h1 h2
  have hlo := hvalid.part h1 h2 le_rfl
  have hbits := hsupplied.hasBits hvalid
  have ⟨hle, hlen, _⟩ := hvalid
  have hwhole := exec_getrange_of_hasBits hvalid hbits
  have hjoin := ofNat_shiftLeft_or (s.rangeSum start mid) (s.rangeSum_lt h2)
  rw [← State.rangeSum_split s h1 h2] at hjoin
  refine ⟨hhi, hlo, BitVec.ofNat 32 (s.rangeSum start mid), BitVec.ofNat 32 (s.rangeSum mid stop),
    fun i => BitVec.ofNat 32 (s.streamBit i), exec_getrange_of_hasBits hhi (hsupplied.hasBits hhi),
    exec_getrange_of_hasBits hlo (hsupplied.hasBits hlo), by rwa [hjoin], fun i hi hi' => ?_, ?_⟩
  · obtain ⟨t, ht⟩ := hbits i hi hi'
    rw [exec_getbit_of_bitAt ht, State.boolData_eq_streamBit ht]
  · rw [hjoin, s.toNat_rangeSum hle hlen]
    refine Finset.sum_congr rfl fun i _ => ?_
    have hbit := s.streamBit_lt i
    rw [BitVec.toNat_ofNat, Nat.mod_eq_of_lt (by omega), Nat.shiftLeft_eq]

/-- Settles O15: in bounds both commands deliver the one bit. -/
theorem oneBitRangeIsGetbit : Obligations.OneBitRangeIsGetbit := by
  intro s i hi
  have hvalid : rangeValid i (i + 1) s.len := ⟨by omega, by omega, fun _ => hi, fun h => by omega⟩
  rcases execGetbit_cases i s with ⟨hout, -⟩ | ⟨-, hgetbit⟩
  · omega
  · rw [exec_getrange_of_valid hvalid, exec_getbit, hgetbit, State.rangeData_one]

/-- Settles O16: the big-endian number of the bytes is the sum of their bits. -/
theorem alignedFieldIsBigEndian : Obligations.AlignedFieldIsBigEndian := by
  intro s k n v hn hn' hk hread
  obtain ⟨hbits, rfl⟩ := State.readBytes_eq_rangeSum hread
  exact exec_getrange_of_hasBits ⟨by omega, by omega, fun _ => by omega, fun h => by omega⟩ hbits

/-! ### The same bits elsewhere (R81) -/

/-- Where the operands, moved by `e`, meet the same tests and the bits moved by `e` are the same, so is the response. -/
theorem sameResponse_getrange_shift {s t : State} {start stop e : Nat}
    (hvalid : rangeValid (start + e) (stop + e) t.len ↔ rangeValid start stop s.len)
    (hcause : rangeCause (start + e) (stop + e) t.len = rangeCause start stop s.len)
    (hbits : ∀ i, start ≤ i → i < stop → t.bitAt (i + e) = s.bitAt i) :
    SameResponse s t (exec (.getrange start stop) s) (exec (.getrange (start + e) (stop + e)) t) := by
  by_cases h : rangeValid start stop s.len
  · rw [exec_getrange_of_valid h, exec_getrange_of_valid (hvalid.2 h), State.rangeData_shift hbits]
    exact sameResponse_deliver s t _
  · rw [exec_getrange_of_not_valid h, exec_getrange_of_not_valid (mt hvalid.1 h), hcause]
    exact sameResponse_raise s t _

/-- Settles O17: with the end inside both sequences the tests come out alike, and each bit lies in a byte the range touches. -/
theorem rangeDependsOnlyOnTouchedBytes : Obligations.RangeDependsOnlyOnTouchedBytes := by
  intro s t start stop r hlt hs ht hbytes
  refine sameResponse_getrange_shift (e := 0) ?_ ?_ (fun i hi hi' => ?_) r
  · unfold rangeValid
    omega
  · rw [rangeCause, rangeCause, if_neg (show ¬ t.len < (stop + 0) / 8 by omega), if_neg (show ¬ s.len < stop / 8 by omega)]
    rfl
  · have hfirst : start / 8 ≤ byteIndex i := Nat.div_le_div_right hi
    have hlast : byteIndex i ≤ (stop - 1) / 8 := Nat.div_le_div_right (Nat.le_sub_one_of_lt hi')
    rw [Nat.add_zero, State.bitAt, State.bitAt, hbytes (byteIndex i) hfirst hlast]

theorem byteIndex_add_eight_mul (i d : Nat) : byteIndex (i + 8 * d) = byteIndex i + d :=
  Nat.add_mul_div_left i d (by decide)

theorem bitOff_add_eight_mul (i d : Nat) : bitOff (i + 8 * d) = bitOff i :=
  Nat.add_mul_mod_self_left i 8 d

/-- Moved by whole bytes, operands and length meet the tests of R75 as before. -/
theorem rangeValid_shift (start stop len d : Nat) :
    rangeValid (start + 8 * d) (stop + 8 * d) (len + d) ↔ rangeValid start stop len := by
  unfold rangeValid
  omega

theorem rangeCause_shift (start stop len d : Nat) :
    rangeCause (start + 8 * d) (stop + 8 * d) (len + d) = rangeCause start stop len := by
  simp only [rangeCause, Nat.add_mul_div_left stop d (show 0 < 8 by decide), Nat.add_lt_add_iff_right, Nat.add_sub_add_right]

/-- With `d` bytes put in front, byte `k` is found at `k + d`. -/
theorem State.readByte_shift {s t : State} {d : Nat} (hlen : t.len = s.len + d) (hans : t.memAnswers = s.memAnswers)
    (hmem : ∀ k, t.mem.read (k + d) = s.mem.read k) (k : Nat) : t.readByte (k + d) = s.readByte k := by
  simp only [State.readByte, hlen, hans, hmem, Nat.add_lt_add_iff_right]

/-- Settles O18: bytes put in front move every byte, and no bit within its byte. -/
theorem rangeIsShiftInvariant : Obligations.RangeIsShiftInvariant := by
  intro s t d start stop r hlen hans hmem
  refine sameResponse_getrange_shift ?_ ?_ (fun i _ _ => ?_) r
  · rw [hlen]
    exact rangeValid_shift start stop s.len d
  · rw [hlen]
    exact rangeCause_shift start stop s.len d
  · rw [State.bitAt, State.bitAt, byteIndex_add_eight_mul, bitOff_add_eight_mul, State.readByte_shift hlen hans hmem]

end Sys2Proof.Machine
end

section
/-! PROOFS of the family of `43_multi_byte_shifter.md`: how many bytes a range touches (R91), and that the forms of its value that a
circuit computes (R92 to R96) are the sum of its bits, which is what `getrange` and `getbit` answer. -/

namespace Sys2Proof.Machine

/-! ### The window of bytes a range touches (R66, R91) -/

/-- R66: a bit index is its byte index and its offset put together. -/
theorem eight_mul_firstByte_add_bitOff (b : Nat) : 8 * firstByte b + bitOff b = b := Nat.div_add_mod b 8

theorem bytesTouched_pos (start stop : Nat) : 1 ≤ bytesTouched start stop := Nat.le_add_left ..

/-- R91: the range and its tail fill the bytes touched. -/
theorem eight_mul_bytesTouched {start stop : Nat} (h : start < stop) :
    8 * bytesTouched start stop = bitOff start + rangeLen start stop + tailBits start stop := by
  unfold tailBits bytesTouched lastByte firstByte byteIndex bitOff rangeLen Config.byteBits
  omega

/-- R66: the tail is what the last byte holds after the range's last bit. -/
theorem tailBits_eq {start stop : Nat} (h : start < stop) : tailBits start stop = 7 - bitOff (stop - 1) := by
  unfold tailBits bytesTouched lastByte firstByte byteIndex bitOff rangeLen Config.byteBits
  omega

theorem tailBits_le_seven {start stop : Nat} (h : start < stop) : tailBits start stop ≤ 7 := by
  rw [tailBits_eq h]
  exact Nat.sub_le ..

theorem rangeLen_add_start {start stop : Nat} (h : start < stop) : start + rangeLen start stop = stop :=
  Nat.add_sub_cancel' h.le

/-- The bytes touched end where the tail does. -/
theorem stop_add_tailBits {start stop : Nat} (h : start < stop) :
    stop + tailBits start stop = 8 * (firstByte start + bytesTouched start stop) := by
  have hstart := eight_mul_firstByte_add_bitOff start
  have hfill := eight_mul_bytesTouched h
  have hlen := rangeLen_add_start h
  omega

/-- Settles O6: everything follows from how range and tail fill the bytes touched. -/
theorem rangeTouchesAtMostFiveBytes : Obligations.RangeTouchesAtMostFiveBytes := by
  refine ⟨by decide, fun start stop hlt hlen => ?_⟩
  have hfill := eight_mul_bytesTouched hlt
  have htail := tailBits_le_seven hlt
  have hoff := bitOff_le_seven start
  have hsum := rangeLen_add_start hlt
  exact ⟨bytesTouched_pos start stop, by omega, by omega, hfill, htail, tailBits_eq hlt, by omega⟩

/-! ### Shift and mask (R92) -/

theorem shiftMask_eq_div_mod (v tail len : Nat) : shiftMask v tail len = v / 2 ^ tail % 2 ^ len := by
  rw [shiftMask, Nat.shiftRight_eq_div_pow]

theorem shiftMask_lt (v tail len : Nat) : shiftMask v tail len < 2 ^ len := Nat.mod_lt _ (Nat.two_pow_pos len)

/-- R92: of the sum over a window, shift and mask keep the sum over the range inside it, each bit at its weight there. -/
theorem State.shiftMask_rangeSum (s : State) {a start stop b tail len : Nat} (ha : a ≤ start) (hlen : start + len = stop)
    (htail : stop + tail = b) : shiftMask (s.rangeSum a b) tail len = s.rangeSum start stop := by
  subst hlen htail
  have hrange : s.rangeSum start (start + len) < 2 ^ len := by simpa using s.rangeSum_lt (Nat.le_add_right start len)
  have hafter : s.rangeSum (start + len) (start + len + tail) < 2 ^ tail := by
    simpa using s.rangeSum_lt (Nat.le_add_right (start + len) tail)
  have hshifted : s.rangeSum a (start + len + tail) / 2 ^ tail = s.rangeSum a (start + len) := by
    rw [State.rangeSum_split s (ha.trans (Nat.le_add_right start len)) (Nat.le_add_right _ tail), Nat.add_sub_cancel_left,
      Nat.mul_add_div (Nat.two_pow_pos tail), Nat.div_eq_of_lt hafter, Nat.add_zero]
  rw [shiftMask_eq_div_mod, hshifted, State.rangeSum_split s ha (Nat.le_add_right start len), Nat.add_sub_cancel_left,
    Nat.mul_add_mod, Nat.mod_eq_of_lt hrange]

/-- Each byte that a range touches holds one of its bits, so it reads where the bits do. -/
theorem State.hasBits.readByte {s : State} {start stop j : Nat} (h : s.hasBits start stop) (hlt : start < stop)
    (hj : j < bytesTouched start stop) : ∃ byte, s.readByte (firstByte start + j) = some byte := by
  have hmem : firstByte start + j ∈ readSet (.getrange start stop) := by
    rw [readSet, if_pos hlt, List.mem_range'_1]
    omega
  obtain ⟨i, hi, hi', hbyte⟩ := exists_bit_of_mem_readSet hmem
  obtain ⟨t, ht⟩ := h i hi hi'
  obtain ⟨byte, hread, -⟩ := State.bitAt_eq_some.1 ht
  exact ⟨byte, hbyte ▸ hread⟩

theorem State.readBytes_of_readByte {s : State} {k n : Nat} (h : ∀ j, j < n → ∃ byte, s.readByte (k + j) = some byte) :
    ∃ v, s.readBytes k n = some v := by
  induction n with
  | zero => exact ⟨0, rfl⟩
  | succ n ih =>
    obtain ⟨high, hhigh⟩ := ih fun j hj => h j (by omega)
    obtain ⟨low, hlow⟩ := h n (Nat.lt_succ_self n)
    exact ⟨high * 2 ^ Config.byteBits + low.toNat, by simp [State.readBytes, hhigh, hlow]⟩

/-- R92: the bytes touched read as a number, of which shift and mask keep the sum of the range's bits. -/
theorem State.readBytes_of_hasBits {s : State} {start stop : Nat} (h : s.hasBits start stop) (hlt : start < stop) :
    ∃ v, s.readBytes (firstByte start) (bytesTouched start stop) = some v ∧
      shiftMask v (tailBits start stop) (rangeLen start stop) = s.rangeSum start stop := by
  obtain ⟨v, hread⟩ := State.readBytes_of_readByte fun j hj => h.readByte hlt hj
  obtain ⟨-, rfl⟩ := State.readBytes_eq_rangeSum hread
  have hstart := eight_mul_firstByte_add_bitOff start
  exact ⟨_, hread, s.shiftMask_rangeSum (by omega) (rangeLen_add_start hlt) (stop_add_tailBits hlt)⟩

theorem State.shifterData_of_readBytes {s : State} {start stop v : Nat}
    (h : s.readBytes (firstByte start) (bytesTouched start stop) = some v) :
    s.shifterData start stop = some (BitVec.ofNat 32 (shiftMask v (tailBits start stop) (rangeLen start stop))) := by
  rw [State.shifterData, h, Option.map_some]

/-- Inside the sequence a range that is not empty and shorter than 32 bits is valid. -/
theorem rangeValid_of_lt {start stop len : Nat} (hlt : start < stop) (hlen : stop - start ≤ 31) (hs : stop ≤ 8 * len) :
    rangeValid start stop len :=
  ⟨hlt.le, hlen, fun _ => hs, fun h => absurd h hlt.ne⟩

/-- Settles O21: both the shifter and `getrange` answer the sum of the range's bits. -/
theorem shifterComputesTheRange : Obligations.ShifterComputesTheRange := by
  intro s start stop hlt hlen hs hsupplied
  have hbits := hsupplied.hasBits hs
  obtain ⟨v, hread, hvalue⟩ := State.readBytes_of_hasBits hbits hlt
  have hexec := exec_getrange_of_hasBits (rangeValid_of_lt hlt hlen hs) hbits
  rw [← hvalue] at hexec
  exact ⟨v, hread, hexec, State.shifterData_of_readBytes hread⟩

/-! ### The 40-bit window (R93) -/

/-- Zeros put below a number are shifted out with its tail. -/
theorem shiftMask_shiftLeft (v zeros tail len : Nat) : shiftMask (v <<< zeros) (zeros + tail) len = shiftMask v tail len := by
  rw [shiftMask, shiftMask, Nat.shiftRight_add, Nat.shiftLeft_shiftRight]

/-- At most 5 bytes fit the window. -/
theorem window40_toNat {v n : Nat} (hn : n ≤ 5) (hv : v < 2 ^ (8 * n)) : (window40 v n).toNat = v <<< (8 * (5 - n)) := by
  have hfits : v <<< (8 * (5 - n)) < 2 ^ 40 := by
    calc v <<< (8 * (5 - n)) < 2 ^ (8 * n) * 2 ^ (8 * (5 - n)) := by
          rw [Nat.shiftLeft_eq]
          exact Nat.mul_lt_mul_of_pos_right hv (Nat.two_pow_pos _)
      _ = 2 ^ 40 := by rw [← Nat.pow_add, show 8 * n + 8 * (5 - n) = 40 by omega]
  exact Nat.mod_eq_of_lt hfits

/-- Masking with `2^len - 1` is the remainder by `2^len`. -/
theorem windowShiftMask_eq (w : BitVec 40) (off : Nat) {len : Nat} (h : len ≤ 40) :
    windowShiftMask w off len = BitVec.ofNat 32 (shiftMask w.toNat (40 - off - len) len) := by
  have hmask : 2 ^ len - 1 < 2 ^ 40 :=
    (Nat.sub_lt (Nat.two_pow_pos len) Nat.one_pos).trans_le (Nat.pow_le_pow_right (by decide) h)
  rw [windowShiftMask, ← BitVec.ofNat_toNat, BitVec.toNat_and, BitVec.toNat_ushiftRight, BitVec.toNat_ofNat,
    Nat.mod_eq_of_lt hmask, Nat.and_two_pow_sub_one_eq_mod, shiftMask]

/-- Shifting left by `off` drops the bits before the range at the window's top; what the second shift brings down is the range. -/
theorem windowJustify_eq (w : BitVec 40) {off len : Nat} (h : off + len ≤ 40) :
    windowJustify w off len = BitVec.ofNat 32 (shiftMask w.toNat (40 - off - len) len) := by
  have hwidth : 2 ^ 40 = 2 ^ (40 - len) * 2 ^ len := by rw [← Nat.pow_add, Nat.sub_add_cancel (by omega)]
  have hdown : 2 ^ (40 - len) = 2 ^ (40 - off - len) * 2 ^ off := by
    rw [← Nat.pow_add, show 40 - off - len + off = 40 - len by omega]
  rw [windowJustify, ← BitVec.ofNat_toNat, BitVec.toNat_ushiftRight, BitVec.toNat_shiftLeft, Nat.shiftLeft_eq,
    Nat.shiftRight_eq_div_pow, hwidth, Nat.mod_mul_right_div_self, hdown, Nat.mul_div_mul_right _ _ (Nat.two_pow_pos off),
    shiftMask_eq_div_mod]

/-- Settles O22: the shift amount is the tail and the zeros below the bytes. -/
theorem windowFormsAgree : Obligations.WindowFormsAgree := by
  intro v n off len _ hn hv _ _ hlen hfit
  have hwindow := window40_toNat hn hv
  have hvalue : shiftMask (window40 v n).toNat (40 - off - len) len = shiftMask v (8 * n - off - len) len := by
    rw [hwindow, show 40 - off - len = 8 * (5 - n) + (8 * n - off - len) by omega, shiftMask_shiftLeft]
  refine ⟨hwindow, ?_, ?_, by omega, by omega⟩
  · rw [windowShiftMask_eq _ _ (by omega), hvalue]
  · rw [windowJustify_eq _ (by omega), hvalue]

/-! ### The width of the accumulator (R94) -/

/-- One round of the accumulation, in any width. -/
theorem ofNat_shiftLeft_eight_or (width v : Nat) (b : Byte) :
    (BitVec.ofNat width v <<< 8) ||| b.setWidth width = BitVec.ofNat width (v * 256 + b.toNat) := by
  have hjoin : v * 256 + b.toNat = v <<< 8 ||| b.toNat := by
    rw [Nat.shiftLeft_eq, Nat.mul_comm, ← Nat.two_pow_add_eq_or_of_lt b.isLt]
  rw [hjoin, BitVec.ofNat_or, ← BitVec.ofNat_toNat]
  congr 1
  apply BitVec.eq_of_toNat_eq
  simp [Nat.shiftLeft_eq, Nat.mod_mul_mod]

/-- An accumulator of `width` bits holds the big-endian number, reduced to its width. -/
theorem accumulate_ofNat (width v : Nat) (bytes : List Byte) :
    accumulate width (BitVec.ofNat width v) bytes =
      BitVec.ofNat width (bytes.foldl (fun v b => v * 256 + b.toNat) v) := by
  induction bytes generalizing v with
  | nil => rfl
  | cons b rest ih => rw [accumulate, ofNat_shiftLeft_eight_or, ih, List.foldl_cons]

theorem accumulate_zero_toNat (width : Nat) (bytes : List Byte) :
    (accumulate width 0 bytes).toNat = bigEndian bytes % 2 ^ width := by
  rw [show (0 : BitVec width) = BitVec.ofNat width 0 from rfl, accumulate_ofNat, BitVec.toNat_ofNat, bigEndian]

/-- The bits of a number from `tail + len` up do not matter. -/
theorem shiftMask_mod_two_pow (v : Nat) {tail len width : Nat} (h : tail + len ≤ width) :
    shiftMask (v % 2 ^ width) tail len = shiftMask v tail len := by
  obtain ⟨extra, rfl⟩ := Nat.exists_eq_add_of_le h
  rw [shiftMask_eq_div_mod, shiftMask_eq_div_mod, Nat.add_assoc, Nat.pow_add, Nat.mod_mul_right_div_self,
    Nat.pow_add, Nat.mod_mul_right_mod]

theorem accumulatedData_eq {width tail len : Nat} (bytes : List Byte) (h : tail + len ≤ width) :
    accumulatedData width bytes tail len = shiftMask (bigEndian bytes) tail len := by
  rw [accumulatedData, accumulate_zero_toNat, shiftMask_mod_two_pow _ h]

/-- 37 bits lose the first bit of a range of 31 bits with a tail of 7: bit 37 of the five bytes. -/
theorem accumulatedData_37_ne :
    accumulatedData 37 [0x20, 0, 0, 0, 0] 7 31 ≠ shiftMask (bigEndian [0x20, 0, 0, 0, 0]) 7 31 := by decide

/-- Settles O23: the bits lost lie above the range; 37 and 32 bits are computed. -/
theorem datapathNeeds38Bits : Obligations.DatapathNeeds38Bits :=
  ⟨fun _ _ _ bytes h => accumulatedData_eq bytes h,
    ⟨[0x20, 0, 0, 0, 0], 7, 31, by decide, by decide, by decide, accumulatedData_37_ne⟩, by decide, by decide⟩

/-! ### The byte-at-a-time form (R95) -/

/-- R95's `lo`: the first wanted offset in byte `j` of the range. -/
def firstWanted (off j : Nat) : Nat := if j = 0 then off else 0

/-- R95's `hi`: the last wanted offset in byte `j` of the `n` bytes of the range. -/
def lastWanted (n tail j : Nat) : Nat := if j = n - 1 then 7 - tail else 7

/-- R95's `w`: how many bits byte `j` gives. -/
def partWidth (n off tail j : Nat) : Nat := lastWanted n tail j - firstWanted off j + 1

/-- Where the range stands after `j` steps: at the end of byte `j - 1`, but neither before `start` nor beyond `stop`. -/
def partBound (start stop j : Nat) : Nat := max start (min stop (8 * (firstByte start + j)))

/-- The step of byte `j` shifts in what R92 keeps of the one byte. -/
theorem appendPart_eq_shiftMask (n off tail j : Nat) (acc : Data) (byte : Byte) :
    appendPart n off tail j acc byte = (acc <<< partWidth n off tail j) |||
      BitVec.ofNat 32 (shiftMask byte.toNat (7 - lastWanted n tail j) (partWidth n off tail j)) := rfl

theorem partBound_zero (start stop : Nat) : partBound start stop 0 = start := by
  have hstart := eight_mul_firstByte_add_bitOff start
  unfold partBound
  omega

theorem partBound_bytesTouched {start stop : Nat} (h : start < stop) :
    partBound start stop (bytesTouched start stop) = stop := by
  have hend := stop_add_tailBits h
  unfold partBound
  omega

theorem start_le_partBound (start stop j : Nat) : start ≤ partBound start stop j := le_max_left ..

/-- Step `j` moves on inside byte `j`, by `w` bits, up to what lies behind the last wanted offset. -/
theorem partBound_step {start stop j : Nat} (h : start < stop) (hj : j < bytesTouched start stop) :
    8 * (firstByte start + j) ≤ partBound start stop j ∧
    partBound start stop j + partWidth (bytesTouched start stop) (bitOff start) (tailBits start stop) j =
      partBound start stop (j + 1) ∧
    partBound start stop (j + 1) + (7 - lastWanted (bytesTouched start stop) (tailBits start stop) j) =
      8 * (firstByte start + j) + 8 := by
  have hstart := eight_mul_firstByte_add_bitOff start
  have hoff := bitOff_le_seven start
  have hend := stop_add_tailBits h
  have htail := tailBits_le_seven h
  unfold partBound partWidth lastWanted firstWanted
  refine ⟨?_, ?_, ?_⟩
  · omega
  · split_ifs <;> omega
  · split_ifs <;> omega

/-- R95, by R80 and R92 at one byte: step `j` takes the sum of the range's bits from before byte `j` to behind it. -/
theorem State.appendPart_rangeSum {s : State} {start stop j : Nat} {byte : Byte} (h : start < stop)
    (hj : j < bytesTouched start stop) (hbyte : s.readByte (firstByte start + j) = some byte) :
    appendPart (bytesTouched start stop) (bitOff start) (tailBits start stop) j
        (BitVec.ofNat 32 (s.rangeSum start (partBound start stop j))) byte =
      BitVec.ofNat 32 (s.rangeSum start (partBound start stop (j + 1))) := by
  obtain ⟨-, -, hread⟩ := State.readByte_eq_some.1 hbyte
  obtain ⟨hfrom, hwidth, hrest⟩ := partBound_step h hj
  have hpart := s.shiftMask_rangeSum hfrom hwidth hrest
  rw [State.rangeSum_byte hread] at hpart
  rw [appendPart_eq_shiftMask, ofNat_shiftLeft_or _ (shiftMask_lt ..), hpart, ← hwidth,
    State.rangeSum_split s (start_le_partBound start stop j) (Nat.le_add_right ..), Nat.add_sub_cancel_left]

theorem State.byteSerialLoop_of_read {s : State} {k0 n off tail count j : Nat} {acc : Data} {byte : Byte}
    (h : s.readByte (k0 + j) = some byte) :
    s.byteSerialLoop k0 n off tail (count + 1) j acc =
      s.byteSerialLoop k0 n off tail count (j + 1) (appendPart n off tail j acc byte) := by
  rw [State.byteSerialLoop, h]

/-- From the sum of the bits before byte `j`, the remaining steps come to the sum of the range. -/
theorem State.byteSerialLoop_of_hasBits {s : State} {start stop count j : Nat} (h : start < stop)
    (hbits : s.hasBits start stop) (hj : j + count = bytesTouched start stop) :
    s.byteSerialLoop (firstByte start) (bytesTouched start stop) (bitOff start) (tailBits start stop) count j
        (BitVec.ofNat 32 (s.rangeSum start (partBound start stop j))) =
      some (BitVec.ofNat 32 (s.rangeSum start stop)) := by
  induction count generalizing j with
  | zero =>
    obtain rfl : j = bytesTouched start stop := hj
    rw [State.byteSerialLoop, partBound_bytesTouched h]
  | succ count ih =>
    obtain ⟨byte, hbyte⟩ := hbits.readByte h (show j < bytesTouched start stop by omega)
    rw [State.byteSerialLoop_of_read hbyte, State.appendPart_rangeSum h (by omega) hbyte]
    exact ih (by omega)

theorem State.byteSerialData_of_hasBits {s : State} {start stop : Nat} (h : start < stop) (hbits : s.hasBits start stop) :
    s.byteSerialData start stop = some (BitVec.ofNat 32 (s.rangeSum start stop)) := by
  have hloop := State.byteSerialLoop_of_hasBits h hbits (Nat.zero_add _)
  rwa [partBound_zero, State.rangeSum_self] at hloop

/-- Settles O24: the byte-at-a-time form, too, is the sum of the range's bits. -/
theorem byteSerialFormComputesTheRange : Obligations.ByteSerialFormComputesTheRange := by
  intro s start stop hlt hlen hs hsupplied
  have hbits := hsupplied.hasBits hs
  exact ⟨_, State.byteSerialData_of_hasBits hlt hbits, exec_getrange_of_hasBits (rangeValid_of_lt hlt hlen hs) hbits⟩

/-! ### One bit (R96) -/

theorem bytesTouched_one (i : Nat) : bytesTouched i (i + 1) = 1 := by
  rw [bytesTouched, lastByte, Nat.add_sub_cancel, firstByte, Nat.sub_self]

theorem rangeLen_one (i : Nat) : rangeLen i (i + 1) = 1 := Nat.add_sub_cancel_left i 1

theorem tailBits_one (i : Nat) : tailBits i (i + 1) = 7 - bitOff i := tailBits_eq (Nat.lt_succ_self i)

theorem State.readBytes_one {s : State} {k : Nat} {byte : Byte} (h : s.readByte k = some byte) :
    s.readBytes k 1 = some byte.toNat := by
  simp [State.readBytes, h]

/-- R63 is shift and mask of one byte. -/
theorem boolData_selectBit_eq_shiftMask (byte : Byte) (off : Nat) :
    boolData (selectBit byte off) = BitVec.ofNat 32 (shiftMask byte.toNat (7 - off) 1) := by
  rw [boolData_selectBit, shiftMask_eq_div_mod, pow_one]

/-- Settles O25: the selected bit is what shift and mask keep of the one byte touched. -/
theorem getbitIsTheShiftersOneBitCase : Obligations.GetbitIsTheShiftersOneBitCase := by
  intro s i byte hlt hans hread
  have hbytes : s.readBytes (firstByte i) (bytesTouched i (i + 1)) = some byte.toNat := by
    rw [bytesTouched_one]
    exact State.readBytes_one (State.readByte_eq_some.2 ⟨hlt, hans, hread⟩)
  have hexec := exec_getbit_of_read (index := i) hlt hans hread
  have hshifter := State.shifterData_of_readBytes hbytes
  rw [boolData_selectBit_eq_shiftMask] at hexec
  rw [tailBits_one, rangeLen_one] at hshifter
  exact ⟨rangeLen_one i, bytesTouched_one i, tailBits_one i, hbytes, hexec, hshifter⟩

end Sys2Proof.Machine
end

section
/-! PROOFS of the family of `60_exceptions.md`: the cause codes (R101), the order of the causes (R103), what a contract violation
depends on (R100), and the run's fault mark (R106, R128). -/

namespace Sys2Proof

/-! ### The cause codes (R101, U9) -/

theorem Cause.ofCode_reserved : Cause.ofCode 0#3 = none ∧ Cause.ofCode 7#3 = none := ⟨rfl, rfl⟩

/-- A code that reads back as no cause is no cause's, since every cause's code reads back. -/
theorem Cause.code_ne_of_ofCode_eq_none {code : BitVec 3} (h : Cause.ofCode code = none) (c : Cause) : c.code ≠ code := by
  rintro rfl
  cases c.ofCode_code.symm.trans h

theorem Cause.code_inj {c d : Cause} (h : c.code = d.code) : c = d := by
  have hread := congrArg Cause.ofCode h
  rw [Cause.ofCode_code, Cause.ofCode_code] at hread
  exact Option.some.inj hread

end Sys2Proof

namespace Sys2Proof.Machine

/-- Settles O38: the table by its rows, the rest since every code reads back and the reserved ones do not. -/
theorem reservedCauseCodesNeverAppear : Obligations.ReservedCauseCodesNeverAppear :=
  ⟨⟨rfl, rfl, rfl, rfl, rfl, rfl⟩, Cause.ofCode_reserved,
    fun c => ⟨Cause.code_ne_of_ofCode_eq_none Cause.ofCode_reserved.1 c,
      Cause.code_ne_of_ofCode_eq_none Cause.ofCode_reserved.2 c, c.ofCode_code⟩,
    fun _ _ => Cause.code_inj⟩

/-! ### Which instruction violates the contract (R100, R101, R103) -/

/-- The instruction is a violation with this cause against a sequence of `len` bytes. -/
def violates (len : Nat) : Instr → Cause → Prop
  | .getbit index, c => 8 * len ≤ index ∧ c = .indexOob
  | .getrange start stop, c => ¬ rangeValid start stop len ∧ c = rangeCause start stop len

theorem raised_cause {s : State} {c c' : Cause}
    (h : (.next (s.answer (.fault c)) : Host.Outcome State Fault Refusal) = .next (s.answer (.fault c'))) : c = c' :=
  Rsp.fault.inj (State.answer_inj (Host.Outcome.next.inj h))

/-- What delivers a value, or stops for want of one, reports no violation. -/
theorem deliver_ne_fault (data : Option Data) (s : State) (c : Cause) :
    s.deliver data ≠ .next (s.answer (.fault c)) := by
  intro h
  obtain ⟨d, -, ht⟩ := deliver_next h
  exact State.raised_ne_ok (congrArg Host.Outcome.next ht)

theorem exec_getbit_fault_iff {s : State} {index : Nat} {c : Cause} :
    exec (.getbit index) s = .next (s.answer (.fault c)) ↔ violates s.len (.getbit index) c := by
  rw [exec_getbit]
  rcases execGetbit_cases index s with ⟨hout, hexec⟩ | ⟨hin, hexec⟩ <;> rw [hexec]
  · exact ⟨fun h => ⟨hout, (raised_cause h).symm⟩, fun ⟨_, hc⟩ => hc ▸ rfl⟩
  · exact ⟨fun h => absurd h (deliver_ne_fault _ s c), fun ⟨hout, _⟩ => absurd hin (Nat.not_lt.2 hout)⟩

theorem exec_getrange_fault_iff {s : State} {start stop : Nat} {c : Cause} :
    exec (.getrange start stop) s = .next (s.answer (.fault c)) ↔ violates s.len (.getrange start stop) c := by
  by_cases hvalid : rangeValid start stop s.len
  · rw [exec_getrange_of_valid hvalid]
    exact ⟨fun h => absurd h (deliver_ne_fault _ s c), fun ⟨hinvalid, _⟩ => absurd hvalid hinvalid⟩
  · rw [exec_getrange_of_not_valid hvalid]
    exact ⟨fun h => ⟨hvalid, (raised_cause h).symm⟩, fun ⟨_, hc⟩ => hc ▸ rfl⟩

/-- A command responds with a fault exactly when its operands violate the contract against `L`; memory plays no part. -/
theorem exec_fault_iff {s : State} {i : Instr} {c : Cause} :
    exec i s = .next (s.answer (.fault c)) ↔ violates s.len i c := by
  cases i with
  | getbit index => exact exec_getbit_fault_iff
  | getrange start stop => exact exec_getrange_fault_iff

/-- Settles O41: the violation is a condition on the operands and `L`. -/
theorem violationDependsOnlyOnOperandsAndLength : Obligations.ViolationDependsOnlyOnOperandsAndLength := by
  intro s t i c hlen h
  have hviolates : violates s.len i c := exec_fault_iff.1 h
  rw [hlen] at hviolates
  exact exec_fault_iff.2 hviolates

/-! ### The order of the causes (R103) -/

theorem rangeCause_endOob {start stop len : Nat} (h : len < stop / 8) : rangeCause start stop len = .rangeEndOob :=
  if_pos h

theorem rangeCause_reversed {start stop len : Nat} (hend : stop / 8 ≤ len) (h : stop < start) :
    rangeCause start stop len = .rangeReversed := by
  rw [rangeCause, if_neg (Nat.not_lt.2 hend), if_pos h]

theorem rangeCause_tooWide {start stop len : Nat} (hend : stop / 8 ≤ len) (hle : start ≤ stop) (h : 32 ≤ stop - start) :
    rangeCause start stop len = .rangeTooWide := by
  rw [rangeCause, if_neg (Nat.not_lt.2 hend), if_neg (Nat.not_lt.2 hle), if_pos h]

theorem rangeCause_bitOob {start stop len : Nat} (hend : stop / 8 ≤ len) (hle : start ≤ stop) (h : stop - start ≤ 31) :
    rangeCause start stop len = .rangeBitOob := by
  rw [rangeCause, if_neg (Nat.not_lt.2 hend), if_neg (Nat.not_lt.2 hle), if_neg (by omega)]

/-- A valid range, empty or not, passes the test of its end (R64). -/
theorem rangeValid.end_le {start stop len : Nat} (h : rangeValid start stop len) : stop / 8 ≤ len := by
  unfold rangeValid at h
  omega

/-- A range that is not valid faults with the cause that comes first. -/
theorem exec_getrange_of_cause {s : State} {start stop : Nat} {c : Cause} (hinvalid : ¬ rangeValid start stop s.len)
    (hc : rangeCause start stop s.len = c) :
    exec (.getrange start stop) s = .next (afterResponse s (.fault c)) :=
  hc ▸ exec_getrange_of_not_valid hinvalid

/-- Settles O40: each clause of a range breaks one condition of R78 and is the first of R103's tests to do so. -/
theorem faultsInPriorityOrder : Obligations.FaultsInPriorityOrder := by
  refine ⟨fun s cmd e he => runCommand_of_illegal he s,
    fun s index hout => exec_fault_iff.2 ⟨by omega, rfl⟩, fun s start stop => ⟨?_, ?_, ?_, ?_⟩⟩
  · intro hend
    exact exec_getrange_of_cause (fun hvalid => Nat.not_lt.2 hvalid.end_le hend) (rangeCause_endOob hend)
  · intro hend hrev
    exact exec_getrange_of_cause (fun ⟨hle, _⟩ => Nat.not_lt.2 hle hrev) (rangeCause_reversed hend hrev)
  · intro hend hle hwide
    exact exec_getrange_of_cause (fun ⟨_, hlen, _⟩ => by omega) (rangeCause_tooWide hend hle hwide)
  · intro hend hlt hlen hbit
    exact exec_getrange_of_cause (fun hvalid => Nat.not_lt.2 (hvalid.stop_le hlt) hbit)
      (rangeCause_bitOob hend hlt.le hlen)

/-! ### The run's fault mark (R106, R128) -/

/-- A step that answers a command adds its response; any other step leaves the responses alone. -/
theorem history_of_step {s t : State} (h : step s = .next t) :
    t.history = s.history ∨ ∃ r, t.history = s.history ++ [r] := by
  rcases step_next h with
    ⟨-, rfl⟩ | ⟨_, r, -, -, rfl, -⟩ | ⟨_, -, -, rfl⟩ | ⟨_, _, -, -, rfl⟩ |
    ⟨_, _, _, -, rfl⟩ | ⟨_, _, _, -, rfl⟩ | ⟨_, -, rfl⟩ | ⟨_, _, -, rfl⟩
  case inr.inl => exact .inr ⟨r, s.answer_history r⟩
  all_goals exact .inl rfl

theorem history_prefix_of_step {s t : State} (h : step s = .next t) : s.history <+: t.history := by
  rcases history_of_step h with hsame | ⟨r, hmore⟩
  · rw [hsame]
  · rw [hmore]
    exact List.prefix_append ..

theorem State.faulted_iff {s : State} : s.faulted = true ↔ ∃ r, r ∈ s.history ∧ r.isFault = true := List.any_eq_true

/-- A response that stays in the run keeps the mark it set. -/
theorem State.faulted_of_prefix {s t : State} (hpre : s.history <+: t.history) (h : s.faulted = true) :
    t.faulted = true := by
  obtain ⟨r, hr, hfault⟩ := State.faulted_iff.1 h
  exact State.faulted_iff.2 ⟨r, hpre.subset hr, hfault⟩

/-- R106: whether or not it is over, a faulted run is not successful. -/
theorem State.not_runSuccessful_of_faulted {s : State} (h : s.faulted = true) : s.runSuccessful = false := by
  rw [State.runSuccessful, h, Bool.not_true, Bool.and_false]

/-- Settles O42: no step takes a response back. -/
theorem faultMarkIsNeverCleared : Obligations.FaultMarkIsNeverCleared := by
  intro s t hstep
  have hpre := history_prefix_of_step hstep
  refine ⟨hpre, fun hs => ?_⟩
  have ht := State.faulted_of_prefix hpre hs
  exact ⟨ht, State.not_runSuccessful_of_faulted hs, State.not_runSuccessful_of_faulted ht⟩

end Sys2Proof.Machine
end

section
/-! PROOFS of the family of `70_reset_and_hazards.md`: the environment's moves (R120, R124, R126), the answer a supplied command gets
(R126), the stops of one that cannot read a byte (R122, U7, U16), and the end of a run (R128). -/

namespace Sys2Proof.Machine

/-! ### A byte that cannot be read (R122, R126) -/

theorem State.deliver_none_of_silent {s : State} (h : s.memAnswers = false) :
    s.deliver none = .fault .readUnanswered := by
  simp [State.deliver, h]

theorem State.deliver_none_of_answering {s : State} (h : s.memAnswers = true) :
    s.deliver none = .refused .byteMissing := by
  simp [State.deliver, h]

/-- A bit has no value where reads go unanswered or its byte is absent. -/
theorem State.bitAt_of_unreadable {s : State} {i : Nat} (h : s.memAnswers = false ∨ s.mem.read (i / 8) = none) :
    s.bitAt i = none := by
  refine Option.eq_none_iff_forall_ne_some.2 fun t ht => ?_
  obtain ⟨byte, hbyte, -⟩ := State.bitAt_eq_some.1 ht
  obtain ⟨-, hans, hread⟩ := State.readByte_eq_some.1 hbyte
  rcases h with hsilent | hmissing
  · cases hsilent.symm.trans hans
  · cases hmissing.symm.trans hread

/-- A `getbit` in bounds has nothing to deliver when its bit has no value. -/
theorem exec_getbit_of_bitAt_none {s : State} {i : Nat} (hin : i / 8 < s.len) (hbit : s.bitAt i = none) :
    exec (.getbit i) s = s.deliver none := by
  rcases execGetbit_cases i s with ⟨hout, -⟩ | ⟨-, hexec⟩
  · omega
  · rw [exec_getbit, hexec, hbit, Option.map_none]

/-- A valid range has nothing to deliver when one of its bits has no value: a range that returns a value has them all. -/
theorem exec_getrange_of_bitAt_none {s : State} {start stop i : Nat} (hvalid : rangeValid start stop s.len)
    (hi : start ≤ i) (hi' : i < stop) (hbit : s.bitAt i = none) :
    exec (.getrange start stop) s = s.deliver none := by
  have hexec := exec_getrange_of_valid hvalid
  cases hdata : s.rangeData start stop with
  | none => rw [hexec, hdata]
  | some d =>
    rw [hdata, State.deliver_some] at hexec
    obtain ⟨-, hbits⟩ := bitAt_of_execGetrange hexec
    obtain ⟨t, ht⟩ := hbits i hi hi'
    cases hbit.symm.trans ht

/-- Delivering nothing stops in one of two ways: reads go unanswered (U16), or they are answered and a byte is absent (U7). -/
theorem stops_of_delivers_none {s : State} {absent : Prop} {o : Host.Outcome State Fault Refusal}
    (h : s.memAnswers = false ∨ absent → o = s.deliver none) :
    (s.memAnswers = false → o = .fault .readUnanswered) ∧
    (s.memAnswers = true → absent → o = .refused .byteMissing) :=
  ⟨fun hsilent => (h (.inl hsilent)).trans (State.deliver_none_of_silent hsilent),
    fun hans habsent => (h (.inr habsent)).trans (State.deliver_none_of_answering hans)⟩

/-- Settles O43: a bit the command needs has no value, so it delivers nothing and stops. -/
theorem unreadableByteStopsTheCommand : Obligations.UnreadableByteStopsTheCommand := by
  refine ⟨fun s i hin => ?_, fun s start stop i hi hi' hlen hs => ?_⟩
  · exact stops_of_delivers_none fun hunreadable =>
      exec_getbit_of_bitAt_none hin (State.bitAt_of_unreadable hunreadable)
  · have hvalid := rangeValid_of_lt (hi.trans_lt hi') hlen hs
    exact stops_of_delivers_none fun hunreadable =>
      exec_getrange_of_bitAt_none hvalid hi hi' (State.bitAt_of_unreadable hunreadable)

/-! ### A supplied sequence: every command is answered (R126) -/

theorem exec_getbit_of_supplied {s : State} (h : s.supplied) (index : Nat) :
    ∃ r, exec (.getbit index) s = .next (afterResponse s r) := by
  rcases Nat.lt_or_ge index (8 * s.len) with hin | hout
  · obtain ⟨hans, hbytes⟩ := h
    have hlt := byteIndex_lt_iff.2 hin
    obtain ⟨byte, hread⟩ := hbytes _ hlt
    exact ⟨_, exec_getbit_of_read hlt hans hread⟩
  · exact ⟨_, getbitOutOfBoundsFaults s index hout⟩

theorem exec_getrange_of_supplied {s : State} (h : s.supplied) (start stop : Nat) :
    ∃ r, exec (.getrange start stop) s = .next (afterResponse s r) := by
  by_cases hvalid : rangeValid start stop s.len
  · exact ⟨_, exec_getrange_of_hasBits hvalid (h.hasBits hvalid)⟩
  · exact ⟨_, exec_getrange_of_not_valid hvalid⟩

theorem runCommand_of_supplied {s : State} (h : s.supplied) (cmd : BitVec Config.commandBits) :
    ∃ r, runCommand cmd s = .next (afterResponse s r) := by
  cases hd : decode cmd with
  | error e => exact ⟨_, runCommand_of_illegal hd s⟩
  | ok i =>
    rw [runCommand_of_decode hd]
    cases i with
    | getbit index => exact exec_getbit_of_supplied h index
    | getrange start stop => exact exec_getrange_of_supplied h start stop

/-- Settles O49: the undisturbed word is run, and with every byte there each way it can go ends in a response. -/
theorem acceptedCommandIsAnswered : Obligations.AcceptedCommandIsAnswered := by
  intro s cmd hf hq hsupplied
  rw [step_of_quiet hf hq]
  exact runCommand_of_supplied hsupplied cmd

/-! ### One equation for each move of the environment -/

theorem step_present {s : State} {len : BitVec Config.indexWidth} {bytes : List Byte} {rest : List Input}
    (hi : s.inputs = .present len bytes :: rest) :
    step s = changeSequence { s with inputs := rest } ({ s with inputs := rest }.install len bytes) := by
  simp only [step, turn, hi, inputTurn]

theorem step_write {s : State} {index : Nat} {byte : Byte} {rest : List Input}
    (hi : s.inputs = .write index byte :: rest) :
    step s = changeSequence { s with inputs := rest } ({ s with inputs := rest }.poke index byte) := by
  simp only [step, turn, hi, inputTurn]

theorem step_rst {s : State} {rest : List Input} (hi : s.inputs = .rst :: rest) :
    step s = .next { s with inputs := rest }.assertRst := by
  simp only [step, turn, hi, inputTurn]

theorem step_answering {s : State} {live : Bool} {rest : List Input} (hi : s.inputs = .answering live :: rest) :
    step s = .next { s with inputs := rest, memAnswers := live } := by
  simp only [step, turn, hi, inputTurn]

theorem step_await_of_idle {s : State} {rest : List Input} (hf : s.inFlight = none) (hi : s.inputs = .await :: rest) :
    step s = .next { s with inputs := rest } := by
  simp only [step, turn, hi, inputTurn, hf]

theorem step_of_idle_of_no_inputs {s : State} (hf : s.inFlight = none) (hi : s.inputs = []) : step s = .next s := by
  simp only [step, turn, hi, blockTurn, hf]

theorem State.quiet_of_await_or_nil {s : State} {rest : List Input} (h : s.inputs = .await :: rest ∨ s.inputs = []) :
    s.quiet = true := by
  rcases h with hi | hi <;> rw [State.quiet, hi]

/-- Settles O57, one clause for each move; a command in flight is undisturbed by an await and by no move. -/
theorem movesThatTouchNoByte : Obligations.MovesThatTouchNoByte :=
  fun _ _ => ⟨fun _ hi => step_answering hi, step_await_of_idle, step_of_idle_of_no_inputs,
    fun _ hf hi => step_of_quiet hf (State.quiet_of_await_or_nil hi)⟩

/-! ### Changing the sequence while a command is in flight (R29, R124) -/

/-- States that present the same sequence have the same byte at each index below `L` (R20). -/
theorem read_of_sameSequence {s t : State} (h : s.sameSequence t = true) {k : Nat} (hk : k < s.len) :
    s.mem.read k = t.mem.read k := by
  obtain ⟨hlen, hmem⟩ := sameSequence_iff.1 h
  have hl : s.len = t.len := congrArg BitVec.toNat hlen
  have hread := congrArg (Memory.read · k) hmem
  simpa only [Memory.read_below, if_pos hk, if_pos (hl ▸ hk)] using hread

/-- In flight, another `L` or another byte below `L` is refused. -/
theorem changeSequence_of_changed {s t : State} {cmd : BitVec Config.commandBits} (hf : s.inFlight = some cmd)
    (h : t.bufLen ≠ s.bufLen ∨ ∃ k, k < s.len ∧ s.mem.read k ≠ t.mem.read k) :
    changeSequence s t = .refused .sequenceChanged := by
  rcases changeSequence_cases s t with ⟨hidle | hsame, -⟩ | ⟨-, -, hrefused⟩
  · cases hidle.symm.trans hf
  · rcases h with hlen | ⟨k, hk, hread⟩
    · exact absurd (sameSequence_iff.1 hsame).1.symm hlen
    · exact absurd (read_of_sameSequence hsame hk) hread
  · exact hrefused

theorem State.read_install_of_lt {s : State} {len : BitVec Config.indexWidth} {bytes : List Byte} {k : Nat}
    (hk : k < len.toNat) : (s.install len bytes).mem.read k = bytes[k]? :=
  Memory.read_presented_of_lt bytes hk

/-- Settles O44: `L` is compared first, so a byte below the old `L` is one below the new, and reads back as it was put there. -/
theorem changingTheSequenceInFlightIsRefused : Obligations.ChangingTheSequenceInFlightIsRefused := by
  intro s cmd rest hf
  refine ⟨fun len bytes hi hchange => ?_, fun index byte hi hlt hread => ?_⟩
  · rw [step_present hi]
    refine changeSequence_of_changed hf ?_
    by_cases hlen : len = s.bufLen
    · subst hlen
      obtain hne | ⟨k, hk, hread⟩ := hchange
      · exact absurd rfl hne
      · refine .inr ⟨k, hk, ?_⟩
        rwa [State.read_install_of_lt hk]
    · exact .inl hlen
  · rw [step_write hi, State.poke_of_lt (s := { s with inputs := rest }) byte hlt]
    refine changeSequence_of_changed hf (.inr ⟨index, hlt, ?_⟩)
    rwa [Memory.read_write_same]

/-- Leaving the state as it is goes through, in flight or not. -/
theorem changeSequence_self (s : State) : changeSequence s s = .next s := by
  have hsame : s.sameSequence s = true := sameSequence_iff.2 ⟨rfl, rfl⟩
  rw [changeSequence, hsame, Bool.or_true, if_pos rfl]

/-- The invariant's storage holds no byte at or beyond `L` (R26). -/
theorem State.Inv.read_of_le {s : State} (h : s.Inv) {k : Nat} (hk : s.len ≤ k) : s.mem.read k = none := by
  rw [← h.inSequence, Memory.read_below, if_neg (Nat.not_lt.2 hk)]

/-- Presenting the sequence that is there already: both storages are canonical and read alike, so they are one. -/
theorem State.Inv.install_self {s : State} (h : s.Inv) {bytes : List Byte}
    (hbytes : ∀ k, k < s.len → s.mem.read k = bytes[k]?) : s.install s.bufLen bytes = s := by
  have hnew := h.install s.bufLen bytes
  have hmem : (s.install s.bufLen bytes).mem = s.mem := by
    refine Memory.ext_of_risesFrom hnew.canonical h.canonical fun k => ?_
    rcases Nat.lt_or_ge k s.len with hlt | hle
    · rw [State.read_install_of_lt hlt, hbytes k hlt]
    · rw [hnew.read_of_le hle, h.read_of_le hle]
  rw [State.install_mem] at hmem
  rw [State.install, hmem]

/-- Writing the byte that is there already, or one that is no byte of the sequence. -/
theorem State.Inv.poke_self {s : State} (h : s.Inv) {index : Nat} {byte : Byte}
    (hsame : s.len ≤ index ∨ s.mem.read index = some byte) : s.poke index byte = s := by
  rcases hsame with hle | hread
  · exact State.poke_of_le byte hle
  · obtain ⟨hwrite, -⟩ := Memory.write_of_read h.canonical hread
    rw [State.poke, hwrite, ite_self]

/-- Settles O58: either move leaves the state as it is, but for itself in the list of moves. -/
theorem unchangedSequenceInFlightGoesThrough : Obligations.UnchangedSequenceInFlightGoesThrough := by
  intro s cmd rest h _
  have hrest := h.withInputs rest
  refine ⟨fun bytes hi hbytes => ?_, fun index byte hi hsame => ?_⟩
  · rw [step_present hi, hrest.install_self hbytes, changeSequence_self]
  · rw [step_write hi, hrest.poke_self hsame, changeSequence_self]

/-! ### Reset and the end of a run (R120, R128) -/

/-- Settles O51: the move is `assertRst`, which counts the command in flight, if any. -/
theorem resetDropsTheCommandInFlight : Obligations.ResetDropsTheCommandInFlight := by
  intro s rest hi
  rw [step_rst hi, State.assertRst, Option.length_toList]

theorem State.runOver_iff {s : State} :
    s.runOver = true ↔ s.inFlight = none ∧ s.inputs.any Input.isCommand = false ∧ s.dropped = 0 := by
  simp [State.runOver, and_assoc]

/-- Settles O55: of the three parts of the account, nothing is in flight and nothing was dropped. -/
theorem runOverMeansAllAnswered : Obligations.RunOverMeansAllAnswered := by
  intro s h hover
  obtain ⟨hidle, -, hdropped⟩ := State.runOver_iff.1 hover
  have haccount := h.accounted
  rwa [hidle, hdropped, Option.toList_none, List.length_nil] at haccount

end Sys2Proof.Machine
end

section
/-! PROOFS about words the spec writes out: the meaning of the command words of `30_encoding.md` section 9 and
`95_test_vectors.md` section 2.1. -/

namespace Sys2Proof

/-! ### A word's meaning, read off the numbers in its fields (R40, R45) -/

/-- A `getbit` word whose field `b` holds a number other than zero (R44). -/
theorem decodeCmd_eq_reservedField {iw b : Nat} {cmd : BitVec (Config.cmdWidth iw)} (hop : cmdOp iw cmd = 1#4)
    (hb : cmdB iw cmd = b) (hne : b ≠ 0) : decodeCmd iw cmd = .error (.reservedField b) := by
  subst hb
  exact decodeCmd_reservedField hop hne

/-- A word whose field `op` holds a value that is no operation's (R43). -/
theorem decodeCmd_eq_reservedOp {iw : Nat} {op : BitVec 4} {cmd : BitVec (Config.cmdWidth iw)} (hop : cmdOp iw cmd = op)
    (h1 : op ≠ 1#4) (h2 : op ≠ 2#4) : decodeCmd iw cmd = .error (.reservedOp op) := by
  subst hop
  exact decodeCmd_reservedOp h1 h2

/-- Settles O35: only the fields of each word are evaluated, and the decoder's laws say what they mean. -/
theorem writtenOutWordsDecode : Obligations.WrittenOutWordsDecode := by
  refine ⟨?getbit, ?getrange, ?widest, ?reservedField, ?reservedOp⟩
  case getbit => exact decodeCmd_eq_ok_iff.2 (by decide)
  case getrange => exact decodeCmd_eq_ok_iff.2 (by decide)
  case widest => exact decodeCmd_eq_ok_iff.2 (by decide)
  case reservedField => exact decodeCmd_eq_reservedField (by decide) (by decide) Nat.one_ne_zero
  case reservedOp => exact decodeCmd_eq_reservedOp (by decide) (by decide) (by decide)

end Sys2Proof
end
